-- ==== Sys2Proof/Word.lean ====
section
/-! DEFINITION. The Word: one signed integer cell of Memory, or an instruction or operand value (spec/00_scope.md R6 and
GLOSSARY). The spec never reads a bit of a Word, only its integer value (spec/41_arithmetic.md R143, spec/00_scope.md R8), so a
Word is an `Int` here, and that it lies in WMIN to WMAX is a check (`Config.isWord` in Sys2Proof/Config.lean) kept as an
invariant (log entry 1). There is no name of its own for the type: `Int` is the name linear arithmetic knows. -/

namespace Sys2Proof

/-- The least integer of `bits` bits: -2^(bits-1) (spec/00_scope.md R5). -/
def wordMin (bits : Nat) : Int := -((2 ^ (bits - 1) : Nat) : Int)

/-- The greatest integer of `bits` bits: 2^(bits-1) - 1 (spec/00_scope.md R5). -/
def wordMax (bits : Nat) : Int := ((2 ^ (bits - 1) : Nat) : Int) - 1

end Sys2Proof
end

