-- ==== Sys2Proof/Config.lean ====
section
/-! DEFINITION. The two implementation parameters of spec/00_scope.md R5, WORD_BITS and CAP, the constraint the rule puts on
them, and the values it fixes for this hardware. IN_DEPTH, OUT_DEPTH and STEP_LIMIT stay absent: the queue and the log are
unbounded and there is no step limit (R5; spec/92_eei_decisions.md, summary; log entry 29). No value is left free: every
result is a function of the state (spec/93_implementation_defined.md, end of Part 1). -/

namespace Sys2Proof

/-- What an implementation fixes (spec/00_scope.md R5). -/
structure Config where
  /-- WORD_BITS: the width of a Word. -/
  wordBits : Nat
  /-- CAP: the number of Words of Memory. -/
  cap : Nat
  deriving DecidableEq, Repr

/-- This hardware: 64-bit Words and 2048 of them (spec/00_scope.md R5; log entry 2). -/
def config : Config := { wordBits := 64, cap := 2048 }

/-- WMIN, the least Word: -2^(W-1) (spec/00_scope.md R5). -/
def Config.wmin (c : Config) : Int := wordMin c.wordBits

/-- WMAX, the greatest Word: 2^(W-1) - 1 (spec/00_scope.md R5). -/
def Config.wmax (c : Config) : Int := wordMax c.wordBits

/-- `isWord(v)`: WMIN <= v <= WMAX (spec/00_scope.md R6). -/
abbrev Config.isWord (c : Config) (v : Int) : Prop := c.wmin ≤ v ∧ v ≤ c.wmax

/-- The constraint column of spec/00_scope.md R5: W >= 64 and 4 <= CAP <= WMAX - 4. -/
abbrev Config.ok (c : Config) : Prop := 64 ≤ c.wordBits ∧ 4 ≤ c.cap ∧ (c.cap : Int) ≤ c.wmax - 4

end Sys2Proof
end

