-- ==== Sys2Proof/Machine/State.lean ====
section
/-! DEFINITION. The whole state of one machine, (Mem, IP, RB, INQ, OUTLOG, STATUS, FAULT) with HALT_REASON
(spec/10_state.md, head note and R20 to R34), the causes a step can fault with (spec/60_exceptions.md R190), the refusals,
and the state after reset. -/

namespace Sys2Proof.Machine

/-- Memory: the Words that are not 0, each with its address, the addresses strictly rising (`Memory.wf`). An address that is
not listed reads as 0, which is the spec's zero fill (spec/20_memory.md R52). The cells are Words and not bytes, because the
spec says that a model must represent Memory as integers (spec/20_memory.md R55; log entry 3). -/
abbrev Memory := List (Nat × Int)

/-- The value an unlisted address reads as (spec/20_memory.md R52). -/
def Memory.zeroFill : Int := 0

/-- STATUS (spec/10_state.md R26). -/
inductive Status where
  | running | halted | faulted
  deriving DecidableEq, Repr

/-- HALT_REASON: which of the two ways of halting ended the run (spec/10_state.md R28). -/
inductive HaltReason where
  /-- A Halt instruction (spec/45_relbase_halt.md R183). -/
  | explicit
  /-- The end test IP >= CAP (spec/40_step_and_operands.md R111). -/
  | ranOffEnd
  deriving DecidableEq, Repr

/-- The fault causes a step can raise, with their payloads (spec/60_exceptions.md R190; log entry 19). The spec describes what
raising one does (STATUS and FAULT are written, R201), so a step that raises a cause TAKES it as a next state
(`takeFault`), in which this value is the FAULT record; no step of this model answers `Outcome.fault` (log entry 4). -/
inductive Fault where
  /-- Raised by decode: the opcode value c at address ip is none of the ten (R191). Safe: taken as the spec says. -/
  | unknownOpcode (c : Int) (ip : Nat)
  /-- Raised by decode: operand n of instruction word w at ip has a mode digit 3 to 9 (R196). Safe: taken as the spec says. -/
  | invalidMode (w : Int) (n : Nat) (ip : Nat)
  /-- Raised by a parameter fetch, a source read, a destination, or a firing jump with a negative target: a is the exact
  address, which need not be a Word (R192). Safe: taken as the spec says. -/
  | outOfBounds (a : Int)
  /-- Raised by ReadInput on an empty queue (R193). Safe: taken as the spec says. -/
  | inputExhausted
  /-- Raised by Add, Multiply and AdjustRelativeBase when the exact result is not a Word (R194). Safe: taken as the spec says. -/
  | arithmeticOverflow
  /-- Raised by Add, Multiply, LessThan, Equals and ReadInput with a Literal destination (R195). Safe: taken as the spec says. -/
  | invalidDestination
  deriving DecidableEq, Repr

/-- Why a step is refused. -/
inductive Refusal where
  /-- Raised by an arm of exec that has no meaning yet. Safe. No arm raises it now. -/
  | notModelled (mnemonic : String)
  /-- Raised by step in a state whose STATUS is Halted or Faulted: the spec has no step there, and "a request to step it is
  refused by the interface and changes nothing" (spec/60_exceptions.md R204). Safe. -/
  | terminalMachine
  deriving DecidableEq, Repr

/-- The state of one machine (spec/10_state.md). -/
structure State where
  /-- Mem, R23. -/
  mem : Memory
  /-- IP, R21: a non-negative integer. -/
  ip : Nat
  /-- RB, R22. -/
  rb : Int
  /-- INQ, R24, its front first. -/
  inq : List Int
  /-- OUTLOG, R25, its oldest entry first. -/
  outlog : List Int
  /-- STATUS, R26. -/
  status : Status
  /-- HALT_REASON, R28. -/
  haltReason : Option HaltReason
  /-- FAULT, R27. -/
  fault : Option Fault
  deriving DecidableEq, Repr

/-- The state after reset, which is construction (spec/10_state.md R34): here with the empty program and no input, both of
which are launch inputs and no part of the reset (spec/70_reset_and_hazards.md R230; log entry 6). -/
def State.reset : State where
  mem := []
  ip := 0
  rb := 0
  inq := []
  outlog := []
  status := .running
  haltReason := none
  fault := none

/-- What a step or a meaning answers. -/
abbrev Answer := Host.Outcome State Fault Refusal

end Sys2Proof.Machine
end

