-- ==== Sys2Proof/Machine/Flags.lean ====
section
/-! DEFINITION. What stands in the place of flags. The machine has none (spec/10_state.md R30): an overflow is a fault, a
comparison gives the Word 0 or 1 (spec/42_compare.md R152), and a jump tests a Word against 0 (spec/43_jumps.md R160, R161). -/

namespace Sys2Proof.Machine

/-- The overflow test: the exact result if it is a Word, else ArithmeticOverflow (spec/41_arithmetic.md R141, R142;
spec/45_relbase_halt.md R181; spec/60_exceptions.md R194). -/
def checkWord (c : Config) (v : Int) : Except Fault Int :=
  if c.isWord v then .ok v else .error .arithmeticOverflow

/-- The result of a comparison: 1 if it holds, else 0 (spec/42_compare.md R152). -/
def truthWord (b : Bool) : Int := if b then 1 else 0

/-- The signed comparison of LessThan: the first operand is the smaller (spec/42_compare.md R150; log entry 16). -/
def lessThanWord (x y : Int) : Int := truthWord (decide (x < y))

/-- The comparison of Equals (spec/42_compare.md R151). -/
def equalsWord (x y : Int) : Int := truthWord (decide (x = y))

/-- Every non-zero Word is true (spec/42_compare.md R152, spec/43_jumps.md R160). -/
def isNonZero (v : Int) : Bool := decide (v ≠ 0)

end Sys2Proof.Machine
end

