-- ==== Sys2Proof/Machine/Ops.lean ====
section
/-! DEFINITION. The named operations over memory and registers that every meaning uses: the address decoder and the two access
primitives (spec/20_memory.md R51 to R54), the updates of each register, the ways a step ends (spec/40_step_and_operands.md
R113), and taking a fault as one shared operation (spec/60_exceptions.md R201, R202). There is no return from a fault beside
it, because the spec has none (R203, R204). -/

namespace Sys2Proof.Machine

/-! ### Memory -/

/-- The Word at an address; an unlisted address holds 0 (spec/20_memory.md R52). -/
def Memory.read : Memory → Nat → Int
  | [], _ => Memory.zeroFill
  | (k, v) :: m, a => if k = a then v else Memory.read m a

/-- Memory with nothing listed at a. -/
def Memory.remove (m : Memory) (a : Nat) : Memory := m.filter (fun cell => cell.1 != a)

/-- Memory with (a, v) listed before the first larger address. -/
def Memory.list : Memory → Nat → Int → Memory
  | [], a, v => [(a, v)]
  | (k, u) :: m, a, v => if a < k then (a, v) :: (k, u) :: m else (k, u) :: Memory.list m a v

/-- Memory with the Word v at a. Writing 0 removes the entry: "a Word an instruction has set to 0 is indistinguishable from a
Word never written" (spec/20_memory.md R52). -/
def Memory.write (m : Memory) (a : Nat) (v : Int) : Memory :=
  if v = Memory.zeroFill then m.remove a else (m.remove a).list a v

/-- The canonical form: the addresses strictly rise, and no entry holds the value an unlisted address reads as. -/
def Memory.wf : Memory → Bool
  | [] => true
  | (k, v) :: m => v != Memory.zeroFill && m.all (fun cell => k < cell.1) && Memory.wf m

/-- Memory with the Words ws at a, a + 1, ... -/
def Memory.load (m : Memory) (a : Nat) : List Int → Memory
  | [] => m
  | w :: ws => Memory.load (m.write a w) (a + 1) ws

/-- The address decoder: `valid(a) := 0 <= a and a < CAP`, on the exact integer (spec/20_memory.md R51). -/
abbrev validAddress (c : Config) (a : Int) : Prop := 0 ≤ a ∧ a < c.cap

/-- The address decoder with its fault: a valid address as an index of Memory (spec/20_memory.md R51, R53, R54). -/
def checkAddress (c : Config) (a : Int) : Except Fault Nat :=
  if validAddress c a then .ok a.toNat else .error (.outOfBounds a)

/-- `MemRead(a)` (spec/20_memory.md R53). -/
def memRead (c : Config) (s : State) (a : Int) : Except Fault Int := do
  let k ← checkAddress c a
  return s.mem.read k

/-! ### Registers -/

/-- `Mem[a] <- v` for a valid address (spec/20_memory.md R54). -/
def State.writeMem (s : State) (a : Nat) (v : Int) : State := { s with mem := s.mem.write a v }

/-- `IP <- a` (spec/43_jumps.md R162). -/
def State.setIp (s : State) (a : Nat) : State := { s with ip := a }

/-- `IP <- IP + size`, never checked against CAP (spec/40_step_and_operands.md R117). -/
def State.advance (s : State) (size : Nat) : State := s.setIp (s.ip + size)

/-- `RB <- v` (spec/45_relbase_halt.md R181). -/
def State.setRb (s : State) (v : Int) : State := { s with rb := v }

/-- `INQ <- tail(INQ)` (spec/44_io.md R170). -/
def State.popInput (s : State) : State := { s with inq := s.inq.tail }

/-- `OUTLOG <- OUTLOG ++ [v]` (spec/44_io.md R171). -/
def State.saveOutput (s : State) (v : Int) : State := { s with outlog := s.outlog ++ [v] }

/-- The host's IN_PUSH: a Word at the back of INQ (spec/70_reset_and_hazards.md R235, R246). No step uses it. -/
def State.pushInput (s : State) (v : Int) : State := { s with inq := s.inq ++ [v] }

/-- `INQ[0]`, or the fault of an empty queue (spec/44_io.md R170). -/
def frontInput (s : State) : Except Fault Int :=
  match s.inq with
  | [] => .error .inputExhausted
  | v :: _ => .ok v

/-- OUT, the output register: the last element of the log, no value when it is empty (spec/10_state.md R25). -/
def State.out (s : State) : Option Int := s.outlog.getLast?

/-- OUT_COUNT (spec/10_state.md R25). -/
def State.outCount (s : State) : Nat := s.outlog.length

/-! ### How a step ends -/

/-- `STATUS <- Halted; HALT_REASON <- r`, and nothing else (spec/45_relbase_halt.md R183, spec/40_step_and_operands.md R111). -/
def State.halt (s : State) (r : HaltReason) : State := { s with status := .halted, haltReason := some r }

/-- Taking a fault: `STATUS <- Faulted, FAULT <- K(info)`, and nothing else changes, so IP keeps the address of the faulting
instruction (spec/60_exceptions.md R201, R202; log entry 18). -/
def takeFault (k : Fault) (s : State) : State := { s with status := .faulted, fault := some k }

/-- The end of an execute phase in state s: the scheduled state if nothing was raised, else s with the fault taken and no
scheduled change applied (spec/40_step_and_operands.md R113). -/
def commit (s : State) : Except Fault State → Answer
  | .ok t => .next t
  | .error k => .next (takeFault k s)

end Sys2Proof.Machine
end

