-- ==== Sys2Proof/Syntax.lean ====
section
/-! DEFINITION. The instruction set as syntax: the operands of spec/40_step_and_operands.md R120 and one constructor of
`Instr` per row of the dispatch table, spec/30_encoding.md R86. The role of each operand (source or destination) is that of
R87; a destination is always the last operand. -/

namespace Sys2Proof

/-- An operand: a mode with its parameter word, unchanged (spec/40_step_and_operands.md R120, spec/30_encoding.md R88). -/
inductive Operand where
  /-- Mode 0: the parameter word is an absolute address. -/
  | position (a : Int)
  /-- Mode 1: the parameter word is the value itself. -/
  | literal (v : Int)
  /-- Mode 2: the parameter word is an offset from the Relative Base. -/
  | relative (o : Int)
  deriving DecidableEq, Repr

/-- The ten instructions of spec/30_encoding.md R86, in the table's order of opcodes. -/
inductive Instr where
  /-- Opcode 1: sources a and b, destination d (spec/41_arithmetic.md R141). -/
  | add (a b d : Operand)
  /-- Opcode 2: sources a and b, destination d (spec/41_arithmetic.md R142). -/
  | multiply (a b d : Operand)
  /-- Opcode 3: destination d (spec/44_io.md R170). -/
  | readInput (d : Operand)
  /-- Opcode 4: source a (spec/44_io.md R171). -/
  | saveOutput (a : Operand)
  /-- Opcode 5: test t, target g (spec/43_jumps.md R160). -/
  | jumpIfTrue (t g : Operand)
  /-- Opcode 6: test t, target g (spec/43_jumps.md R161). -/
  | jumpIfFalse (t g : Operand)
  /-- Opcode 7: sources a and b, destination d (spec/42_compare.md R150). -/
  | lessThan (a b d : Operand)
  /-- Opcode 8: sources a and b, destination d (spec/42_compare.md R151). -/
  | equals (a b d : Operand)
  /-- Opcode 9: source a (spec/45_relbase_halt.md R181). -/
  | adjustRelativeBase (a : Operand)
  /-- Opcode 99 (spec/45_relbase_halt.md R183). -/
  | halt
  deriving DecidableEq, Repr

/-- The parameter word of an operand. -/
def Operand.payload : Operand → Int
  | .position a => a
  | .literal v => v
  | .relative o => o

/-- The operands of an instruction in encoding order (spec/30_encoding.md R87). -/
def Instr.operands : Instr → List Operand
  | .add a b d => [a, b, d]
  | .multiply a b d => [a, b, d]
  | .readInput d => [d]
  | .saveOutput a => [a]
  | .jumpIfTrue t g => [t, g]
  | .jumpIfFalse t g => [t, g]
  | .lessThan a b d => [a, b, d]
  | .equals a b d => [a, b, d]
  | .adjustRelativeBase a => [a]
  | .halt => []

/-- The destination operand of an instruction that writes a Word of Memory: operand 3 of Add, Multiply, LessThan and Equals,
operand 1 of ReadInput (spec/30_encoding.md R87, spec/20_memory.md R66). -/
def Instr.destination : Instr → Option Operand
  | .add _ _ d => some d
  | .multiply _ _ d => some d
  | .readInput d => some d
  | .saveOutput _ => none
  | .jumpIfTrue _ _ => none
  | .jumpIfFalse _ _ => none
  | .lessThan _ _ d => some d
  | .equals _ _ d => some d
  | .adjustRelativeBase _ => none
  | .halt => none

end Sys2Proof
end

