-- ==== Sys2Proof/Machine/Operands.lean ====
section
/-! DEFINITION. The operand resolver: the three addressing modes as source and as destination (spec/40_step_and_operands.md
R120 to R127). An address is checked only here, when it is used (R125). -/

namespace Sys2Proof.Machine

/-- The effective address RB + o: the exact integer sum, never wrapped (spec/40_step_and_operands.md R122; log entry 22). -/
def relativeAddress (s : State) (o : Int) : Int := s.rb + o

/-- `ReadOperand(op)` (spec/40_step_and_operands.md R121). -/
def readOperand (c : Config) (s : State) : Operand → Except Fault Int
  | .literal v => .ok v
  | .position a => memRead c s a
  | .relative o => memRead c s (relativeAddress s o)

/-- `DestAddr(op)` (spec/40_step_and_operands.md R123, R124). -/
def destAddress (c : Config) (s : State) : Operand → Except Fault Nat
  | .literal _ => .error .invalidDestination
  | .position a => checkAddress c a
  | .relative o => checkAddress c (relativeAddress s o)

end Sys2Proof.Machine
end

