-- ==== Sys2Proof/Machine/Arithmetic.lean ====
section
/-! DEFINITION. Add and Multiply (spec/41_arithmetic.md), and the execute phase they share with LessThan and Equals. Each
meaning is written at any configuration (`addAt`), and the dispatcher calls it at this hardware's (`execAdd`). -/

namespace Sys2Proof.Machine

/-- The execute phase of a four-Word instruction: both sources in order, the result, the destination, then the write and the
advance (spec/40_step_and_operands.md R128; spec/41_arithmetic.md R140). -/
def storeResultAt (c : Config) (result : Int → Int → Except Fault Int) (a b d : Operand) (s : State) : Answer :=
  commit s do
    let va ← readOperand c s a
    let vb ← readOperand c s b
    let r ← result va vb
    let da ← destAddress c s d
    return (s.writeMem da r).advance 4

/-- Add (spec/41_arithmetic.md R141). -/
def addAt (c : Config) (a b d : Operand) (s : State) : Answer :=
  storeResultAt c (fun x y => checkWord c (x + y)) a b d s

/-- Multiply (spec/41_arithmetic.md R142). -/
def multiplyAt (c : Config) (a b d : Operand) (s : State) : Answer :=
  storeResultAt c (fun x y => checkWord c (x * y)) a b d s

/-- Add on this hardware (spec/41_arithmetic.md R141). -/
def execAdd (a b d : Operand) (s : State) : Answer := addAt config a b d s

/-- Multiply on this hardware (spec/41_arithmetic.md R142). -/
def execMultiply (a b d : Operand) (s : State) : Answer := multiplyAt config a b d s

end Sys2Proof.Machine
end

