-- ==== Sys2Proof/Machine/Compare.lean ====
section
/-! DEFINITION. LessThan and Equals (spec/42_compare.md). The comparison is made on the values themselves, so it never
overflows (R150). -/

namespace Sys2Proof.Machine

/-- LessThan (spec/42_compare.md R150). -/
def lessThanAt (c : Config) (a b d : Operand) (s : State) : Answer :=
  storeResultAt c (fun x y => .ok (lessThanWord x y)) a b d s

/-- Equals (spec/42_compare.md R151). -/
def equalsAt (c : Config) (a b d : Operand) (s : State) : Answer :=
  storeResultAt c (fun x y => .ok (equalsWord x y)) a b d s

/-- LessThan on this hardware (spec/42_compare.md R150). -/
def execLessThan (a b d : Operand) (s : State) : Answer := lessThanAt config a b d s

/-- Equals on this hardware (spec/42_compare.md R151). -/
def execEquals (a b d : Operand) (s : State) : Answer := equalsAt config a b d s

end Sys2Proof.Machine
end

