-- ==== Sys2Proof/Machine/InputOutput.lean ====
section
/-! DEFINITION. ReadInput and SaveOutput (spec/44_io.md). -/

namespace Sys2Proof.Machine

/-- ReadInput (spec/44_io.md R170). An empty queue is the first fault tested; a faulting ReadInput keeps the queue (log entry
18). -/
def readInputAt (c : Config) (d : Operand) (s : State) : Answer :=
  commit s do
    let v ← frontInput s
    let da ← destAddress c s d
    return (s.popInput.writeMem da v).advance 2

/-- SaveOutput (spec/44_io.md R171). -/
def saveOutputAt (c : Config) (a : Operand) (s : State) : Answer :=
  commit s do
    let va ← readOperand c s a
    return (s.saveOutput va).advance 2

/-- ReadInput on this hardware (spec/44_io.md R170). -/
def execReadInput (d : Operand) (s : State) : Answer := readInputAt config d s

/-- SaveOutput on this hardware (spec/44_io.md R171). -/
def execSaveOutput (a : Operand) (s : State) : Answer := saveOutputAt config a s

end Sys2Proof.Machine
end

