-- ==== Sys2Proof/Machine/Jumps.lean ====
section
/-! DEFINITION. JumpIfTrue and JumpIfFalse (spec/43_jumps.md). -/

namespace Sys2Proof.Machine

/-- The target of a jump that fires: absolute, negative is OutOfBounds, CAP or more is taken (spec/43_jumps.md R162; log
entry 14). -/
def jumpTarget (vg : Int) : Except Fault Nat := if vg < 0 then .error (.outOfBounds vg) else .ok vg.toNat

/-- The execute phase of a jump: both operands are read, test then target, before the decision (spec/43_jumps.md R163; log
entry 15); the target is tested only if the jump fires (R162). -/
def jumpAt (c : Config) (fires : Int → Bool) (t g : Operand) (s : State) : Answer :=
  commit s do
    let vt ← readOperand c s t
    let vg ← readOperand c s g
    if fires vt then
      let target ← jumpTarget vg
      return s.setIp target
    else
      return s.advance 3

/-- JumpIfTrue (spec/43_jumps.md R160). -/
def jumpIfTrueAt (c : Config) (t g : Operand) (s : State) : Answer := jumpAt c isNonZero t g s

/-- JumpIfFalse (spec/43_jumps.md R161). -/
def jumpIfFalseAt (c : Config) (t g : Operand) (s : State) : Answer := jumpAt c (fun v => !isNonZero v) t g s

/-- JumpIfTrue on this hardware (spec/43_jumps.md R160). -/
def execJumpIfTrue (t g : Operand) (s : State) : Answer := jumpIfTrueAt config t g s

/-- JumpIfFalse on this hardware (spec/43_jumps.md R161). -/
def execJumpIfFalse (t g : Operand) (s : State) : Answer := jumpIfFalseAt config t g s

end Sys2Proof.Machine
end

