-- ==== Sys2Proof/Machine/RelBaseHalt.lean ====
section
/-! DEFINITION. AdjustRelativeBase and Halt (spec/45_relbase_halt.md). -/

namespace Sys2Proof.Machine

/-- AdjustRelativeBase: the operand is read at the old RB (spec/45_relbase_halt.md R181; log entry 22). -/
def adjustRelativeBaseAt (c : Config) (a : Operand) (s : State) : Answer :=
  commit s do
    let va ← readOperand c s a
    let nb ← checkWord c (s.rb + va)
    return (s.setRb nb).advance 2

/-- AdjustRelativeBase on this hardware (spec/45_relbase_halt.md R181). -/
def execAdjustRelativeBase (a : Operand) (s : State) : Answer := adjustRelativeBaseAt config a s

/-- Halt: IP stays at the Halt (spec/45_relbase_halt.md R183; log entry 17). -/
def execHalt (s : State) : Answer := .next (s.halt .explicit)

end Sys2Proof.Machine
end

