-- ==== Sys2Proof/Machine/Dispatch.lean ====
section
/-! DEFINITION. The execute phase of a decoded instruction: the rule the dispatch table names for it
(spec/40_step_and_operands.md R116, spec/30_encoding.md R86). It does not look at STATUS, which step has tested (R110). -/

namespace Sys2Proof.Machine

def exec (i : Instr) (s : State) : Host.Outcome State Fault Refusal :=
  match i with
  | .add a b d => Sys2Proof.Machine.execAdd a b d s
  | .multiply a b d => Sys2Proof.Machine.execMultiply a b d s
  | .readInput d => Sys2Proof.Machine.execReadInput d s
  | .saveOutput a => Sys2Proof.Machine.execSaveOutput a s
  | .jumpIfTrue t g => Sys2Proof.Machine.execJumpIfTrue t g s
  | .jumpIfFalse t g => Sys2Proof.Machine.execJumpIfFalse t g s
  | .lessThan a b d => Sys2Proof.Machine.execLessThan a b d s
  | .equals a b d => Sys2Proof.Machine.execEquals a b d s
  | .adjustRelativeBase a => Sys2Proof.Machine.execAdjustRelativeBase a s
  | .halt => Sys2Proof.Machine.execHalt s

end Sys2Proof.Machine
end

