-- ==== Sys2Proof/WellFormed.lean ====
section
/-! DEFINITION. Which instructions can stand in Memory: every parameter word is a Word (spec/30_encoding.md R88, "any Word";
spec/00_scope.md R6). There is no other check: any mode may stand in any operand, a Literal destination included, since such
an instruction decodes without error and faults only when it executes (spec/30_encoding.md R94). -/

namespace Sys2Proof

/-- The operand's parameter word is a Word. -/
abbrev Operand.wf (o : Operand) : Prop := config.isWord o.payload

/-- Every parameter word of the instruction is a Word. -/
abbrev Instr.wf (i : Instr) : Prop := ∀ o ∈ i.operands, o.wf

end Sys2Proof
end

