-- ==== Sys2Proof/Decode.lean ====
section
/-! DEFINITION. The decoder and the encoder (spec/30_encoding.md R80 to R96, spec/40_step_and_operands.md R114 and R115).
The encoding is decimal: fields of the instruction word are digits, taken by truncating division and remainder
(spec/00_scope.md R7). The decoder is total on any list of Words. It takes the Words that stand at IP and after it, up to the
end of Memory, and gives the instruction with the Words it did not consume, or the first thing that stops it; the machine
turns that into a fault (`Machine.decodeFault`). -/

namespace Sys2Proof

/-- What stops the decoder. All three are safe: the machine faults. -/
inductive DecodeError where
  /-- No Word at all was given (the machine never decodes at IP >= CAP, spec/40_step_and_operands.md R111). -/
  | noInstructionWord
  /-- The opcode value is none of the ten (R90, R92). -/
  | unknownOpcode (c : Int)
  /-- The mode digit of operand n is 3 or more (R91). -/
  | invalidMode (w : Int) (n : Nat)
  /-- Parameter word n lies past the end of Memory (spec/40_step_and_operands.md R115). -/
  | missingParameter (n : Nat)
  deriving DecidableEq, Repr

/-- The legal opcodes of the dispatch table (spec/30_encoding.md R86). -/
inductive Opcode where
  | add | multiply | readInput | saveOutput | jumpIfTrue | jumpIfFalse | lessThan | equals | adjustRelativeBase | halt
  deriving DecidableEq, Repr

/-- The column "opcode" of the dispatch table (spec/30_encoding.md R86). -/
def Opcode.code : Opcode → Int
  | .add => 1
  | .multiply => 2
  | .readInput => 3
  | .saveOutput => 4
  | .jumpIfTrue => 5
  | .jumpIfFalse => 6
  | .lessThan => 7
  | .equals => 8
  | .adjustRelativeBase => 9
  | .halt => 99

/-- The column "operand count" of the dispatch table (spec/30_encoding.md R86). -/
def Opcode.operandCount : Opcode → Nat
  | .add | .multiply | .lessThan | .equals => 3
  | .jumpIfTrue | .jumpIfFalse => 2
  | .readInput | .saveOutput | .adjustRelativeBase => 1
  | .halt => 0

/-- The column "encoded size": one Word more than the operand count (spec/30_encoding.md R80, R86). -/
def Opcode.size (op : Opcode) : Nat := op.operandCount + 1

/-- The rows of the dispatch table. -/
def Opcode.all : List Opcode :=
  [.add, .multiply, .readInput, .saveOutput, .jumpIfTrue, .jumpIfFalse, .lessThan, .equals, .adjustRelativeBase, .halt]

/-- The row of the dispatch table with opcode value c, if there is one (spec/30_encoding.md R86, R90). -/
def Opcode.ofCode (c : Int) : Option Opcode := Opcode.all.find? (fun op => op.code == c)

/-- The dispatch table's row of an instruction. -/
def Instr.opcode : Instr → Opcode
  | .add _ _ _ => .add
  | .multiply _ _ _ => .multiply
  | .readInput _ => .readInput
  | .saveOutput _ => .saveOutput
  | .jumpIfTrue _ _ => .jumpIfTrue
  | .jumpIfFalse _ _ => .jumpIfFalse
  | .lessThan _ _ _ => .lessThan
  | .equals _ _ _ => .equals
  | .adjustRelativeBase _ => .adjustRelativeBase
  | .halt => .halt

/-- `opcode = w rem 100`, truncating (spec/30_encoding.md R82; spec/00_scope.md R7; log entry 21). -/
def opcodeDigits (w : Int) : Int := w.tmod 100

/-- `mode_n = ((w div 100) div 10^(n-1)) rem 10` (spec/30_encoding.md R83). -/
def modeDigit (w : Int) (n : Nat) : Int := ((w.tdiv 100).tdiv (10 ^ (n - 1))).tmod 10

/-- The three addressing modes (spec/30_encoding.md R84). -/
inductive Mode where
  | position | literal | relative
  deriving DecidableEq, Repr

/-- The mode a digit selects: 0, 1 or 2, and none for 3 to 9 (spec/30_encoding.md R84, R91; log entry 20). -/
def modeOfDigit (m : Int) : Option Mode :=
  if m = 0 then some .position
  else if m = 1 then some .literal
  else if m = 2 then some .relative
  else none

/-- The operand a mode makes of its parameter word, which it takes whole (spec/30_encoding.md R84, R88). -/
def Mode.operand : Mode → Int → Operand
  | .position, p => .position p
  | .literal, p => .literal p
  | .relative, p => .relative p

/-- Operand n: its mode digit is examined first and its parameter word fetched second (spec/40_step_and_operands.md R115;
log entry 23). `ps` are the Words from IP + n to the end of Memory. -/
def decodeOperand (w : Int) (n : Nat) (ps : List Int) : Except DecodeError (Operand × List Int) :=
  match modeOfDigit (modeDigit w n), ps with
  | none, _ => .error (.invalidMode w n)
  | some _, [] => .error (.missingParameter n)
  | some m, p :: rest => .ok (m.operand p, rest)

/-- The operand of a one-operand instruction (format F1, spec/30_encoding.md R85). -/
def decodeF1 (mk : Operand → Instr) (w : Int) (ps : List Int) : Except DecodeError (Instr × List Int) := do
  let (a, ps) ← decodeOperand w 1 ps
  return (mk a, ps)

/-- The operands of a two-operand instruction (format F2), in ascending order. -/
def decodeF2 (mk : Operand → Operand → Instr) (w : Int) (ps : List Int) : Except DecodeError (Instr × List Int) := do
  let (a, ps) ← decodeOperand w 1 ps
  let (b, ps) ← decodeOperand w 2 ps
  return (mk a b, ps)

/-- The operands of a three-operand instruction (format F3), in ascending order. -/
def decodeF3 (mk : Operand → Operand → Operand → Instr) (w : Int) (ps : List Int) :
    Except DecodeError (Instr × List Int) := do
  let (a, ps) ← decodeOperand w 1 ps
  let (b, ps) ← decodeOperand w 2 ps
  let (d, ps) ← decodeOperand w 3 ps
  return (mk a b d, ps)

/-- The operands of the instruction word w of a given row (spec/40_step_and_operands.md R115). -/
def decodeRow (op : Opcode) (w : Int) (ps : List Int) : Except DecodeError (Instr × List Int) :=
  match op with
  | .add => decodeF3 .add w ps
  | .multiply => decodeF3 .multiply w ps
  | .readInput => decodeF1 .readInput w ps
  | .saveOutput => decodeF1 .saveOutput w ps
  | .jumpIfTrue => decodeF2 .jumpIfTrue w ps
  | .jumpIfFalse => decodeF2 .jumpIfFalse w ps
  | .lessThan => decodeF3 .lessThan w ps
  | .equals => decodeF3 .equals w ps
  | .adjustRelativeBase => decodeF1 .adjustRelativeBase w ps
  | .halt => .ok (.halt, ps)

/-- The decoder: opcode first, then the operands (spec/40_step_and_operands.md R114, R115). It gives the instruction and the
Words it did not consume. -/
def decode (ws : List Int) : Except DecodeError (Instr × List Int) :=
  match ws with
  | [] => .error .noInstructionWord
  | w :: ps =>
    match Opcode.ofCode (opcodeDigits w) with
    | none => .error (.unknownOpcode (opcodeDigits w))
    | some op => decodeRow op w ps

/-- The mode digit of an operand (spec/30_encoding.md R84). -/
def Operand.mode : Operand → Int
  | .position _ => 0
  | .literal _ => 1
  | .relative _ => 2

/-- The mode digits of operands, from the operand of weight `weight` on: 100 for operand 1, ten times as much for each
later one (spec/30_encoding.md R81). -/
def modeDigits (weight : Int) : List Operand → Int
  | [] => 0
  | o :: os => weight * o.mode + modeDigits (10 * weight) os

/-- The canonical instruction word `c + 100*m1 + 1000*m2 + 10000*m3` (spec/30_encoding.md R96). -/
def Instr.word (i : Instr) : Int := i.opcode.code + modeDigits 100 i.operands

/-- The canonical Words of an instruction: its instruction word, then its parameter words (spec/30_encoding.md R96). -/
def encode (i : Instr) : List Int := i.word :: i.operands.map Operand.payload

/-- The signed value of the low `bits` bits of w. -/
def signedOf (bits w : Nat) : Int :=
  if w % 2 ^ bits < 2 ^ (bits - 1) then ((w % 2 ^ bits : Nat) : Int) else ((w % 2 ^ bits : Nat) : Int) - ((2 ^ bits : Nat) : Int)

/-- The four Words (the longest instruction) that a host's table word stands for: the low `nbits` bits of w, every bit above
them 0, cut into Words of WORD_BITS bits, the first Word in the lowest bits, each read as a signed integer. This cutting is
the host interface's and no rule of the spec (log entry 7). -/
def tableWords (nbits w : Nat) : List Int :=
  [0, 1, 2, 3].map fun j => signedOf config.wordBits ((w % 2 ^ nbits) / 2 ^ (config.wordBits * j))

/-- The instruction the decoder reads from an instruction whose bits are w (log entry 7). -/
def decodeTableWord (nbits w : Nat) : Option Instr :=
  match decode (tableWords nbits w) with
  | .ok (i, _) => some i
  | .error _ => none

end Sys2Proof
end

