-- ==== Sys2Proof/Machine/Sequencer.lean ====
section
/-! DEFINITION. The instruction-pointer sequencer: the end test, the fetch and the decode of a step
(spec/40_step_and_operands.md R110 to R115), at any configuration and with any execute phase. -/

namespace Sys2Proof.Machine

/-- The Words from address a on, at most n of them and none at or past CAP. -/
def State.wordsFrom (c : Config) (s : State) (a : Nat) : Nat → List Int
  | 0 => []
  | n + 1 => if a < c.cap then s.mem.read a :: State.wordsFrom c s (a + 1) n else []

/-- The Words a step may fetch: the instruction word at IP and at most three parameter words, up to the end of Memory
(spec/30_encoding.md R80, spec/40_step_and_operands.md R112, R115). The decoder takes no more of them than the instruction
has. -/
def State.fetchWords (c : Config) (s : State) : List Int := s.wordsFrom c s.ip 4

/-- The fault a decode error is at address ip. The parameter word n that is past the end is at ip + n
(spec/40_step_and_operands.md R114, R115; spec/60_exceptions.md R191, R192, R196). No instruction word at all is the end test's
business; it would be an access at ip. -/
def decodeFault (ip : Nat) : DecodeError → Fault
  | .noInstructionWord => .outOfBounds ip
  | .unknownOpcode v => .unknownOpcode v ip
  | .invalidMode w n => .invalidMode w n ip
  | .missingParameter n => .outOfBounds ((ip + n : Nat) : Int)

/-- The step of a Running machine: end test, fetch, decode, execute (spec/40_step_and_operands.md R110 to R116). -/
def runningStepAt (c : Config) (execute : Instr → State → Answer) (s : State) : Answer :=
  if c.cap ≤ s.ip then .next (s.halt .ranOffEnd)
  else
    match decode (s.fetchWords c) with
    | .error e => commit s (.error (decodeFault s.ip e))
    | .ok (i, _) => execute i s

/-- One step. A Halted or Faulted machine has none, and the request is refused (spec/60_exceptions.md R204; log entry 5). -/
def stepWith (c : Config) (execute : Instr → State → Answer) (s : State) : Answer :=
  match s.status with
  | .running => runningStepAt c execute s
  | .halted => .refused .terminalMachine
  | .faulted => .refused .terminalMachine

/-- Where the host's table word is placed: at IP if the longest instruction fits there, else at 0 (log entry 8). -/
def fetchPlace (c : Config) (s : State) : Nat := if s.ip + 4 ≤ c.cap then s.ip else 0

/-- s with STATUS Running, and so without a HALT_REASON or FAULT, if it was Halted or Faulted. Only the host's placing of a
table word uses it; no step does (spec/60_exceptions.md R204; log entry 8). -/
def State.awake (s : State) : State :=
  match s.status with
  | .running => s
  | .halted => { s with status := .running, haltReason := none, fault := none }
  | .faulted => { s with status := .running, haltReason := none, fault := none }

/-- s with the Words ws where the next step fetches them (log entry 8). -/
def State.placeWords (c : Config) (s : State) (ws : List Int) : State :=
  { s.awake with mem := s.mem.load (fetchPlace c s) ws, ip := fetchPlace c s }

end Sys2Proof.Machine
end

