-- ==== Sys2Proof/Machine/Step.lean ====
section
/-! DEFINITION. One step of this hardware, and the host's way of placing one instruction before it. -/

namespace Sys2Proof.Machine

/-- One step of this hardware (spec/40_step_and_operands.md R110). -/
def step (s : State) : Host.Outcome State Fault Refusal := stepWith config exec s

/-- s with the instruction whose bits are w where the next step fetches it (log entries 6, 7 and 8). -/
def State.withFetchWord (s : State) (nbits w : Nat) : State := s.placeWords config (tableWords nbits w)

end Sys2Proof.Machine
end

