-- ==== Sys2Proof/Machine/Loader.lean ====
section
/-! DEFINITION. What happens before a machine runs: the program literal (spec/30_encoding.md R98 to R100), which is host
software and no hardware (spec/00_scope.md R4), and construction, which is the only reset (spec/70_reset_and_hazards.md R230
to R234). -/

namespace Sys2Proof.Machine

/-- Why no machine comes to exist. -/
inductive LoadError where
  /-- A token of the literal is not an integer that is a Word (spec/30_encoding.md R99, R100; spec/60_exceptions.md R197). -/
  | parseError (token : List Char)
  /-- The program is longer than Memory (spec/70_reset_and_hazards.md R234). -/
  | outOfBounds (a : Int)
  deriving DecidableEq, Repr

/-- The literal split at every comma (spec/30_encoding.md R98). -/
def splitCommas : List Char → List (List Char)
  | [] => [[]]
  | ch :: cs =>
    match splitCommas cs with
    | [] => [[ch]]
    | t :: ts => if ch = ',' then [] :: t :: ts else (ch :: t) :: ts

/-- A token without the whitespace at both ends (spec/30_encoding.md R99; log entry 26). -/
def trim (t : List Char) : List Char :=
  ((t.dropWhile Char.isWhitespace).reverse.dropWhile Char.isWhitespace).reverse

/-- The number that decimal digits continue from acc; none if some character is no digit. -/
def digitsFrom (acc : Nat) : List Char → Option Nat
  | [] => some acc
  | ch :: cs => if ch.isDigit then digitsFrom (10 * acc + (ch.toNat - '0'.toNat)) cs else none

/-- One or more decimal digits (spec/30_encoding.md R99). -/
def naturalOf : List Char → Option Nat
  | [] => none
  | ch :: cs => digitsFrom 0 (ch :: cs)

/-- An optional minus sign and one or more decimal digits (spec/30_encoding.md R99; log entry 26). -/
def integerOf : List Char → Option Int
  | '-' :: cs => (naturalOf cs).map fun n => -(n : Int)
  | cs => (naturalOf cs).map fun n => (n : Int)

/-- One token: its integer if that is a Word, else ParseError with the trimmed token (spec/30_encoding.md R99, R100). -/
def parseToken (c : Config) (t : List Char) : Except LoadError Int :=
  match integerOf (trim t) with
  | some v => if c.isWord v then .ok v else .error (.parseError (trim t))
  | none => .error (.parseError (trim t))

/-- The tokens in order; the first bad one is reported. -/
def parseTokens (c : Config) : List (List Char) → Except LoadError (List Int)
  | [] => .ok []
  | t :: ts => do
    let v ← parseToken c t
    let vs ← parseTokens c ts
    return v :: vs

/-- The program literal (spec/30_encoding.md R98 to R100). -/
def parseLiteral (c : Config) (text : List Char) : Except LoadError (List Int) := parseTokens c (splitCommas text)

/-- Construction: the program at 0, zero fill above it, the inputs queued, the rest as reset; refused when the program is
longer than Memory (spec/70_reset_and_hazards.md R231, R232, R234). -/
def construct (c : Config) (prog inputs : List Int) : Except LoadError State :=
  if prog.length ≤ c.cap then .ok { State.reset with mem := Memory.load [] 0 prog, inq := inputs }
  else .error (.outOfBounds c.cap)

/-- The launch premises P1 to P3 (spec/70_reset_and_hazards.md R233; log entry 25). -/
abbrev launchOk (c : Config) (prog inputs : List Int) : Prop :=
  (∀ w ∈ prog, c.isWord w) ∧ (∀ v ∈ inputs, c.isWord v) ∧ prog.length ≤ c.cap

end Sys2Proof.Machine
end

