-- ==== Sys2Proof/Machine/Interface.lean ====
section
/-! DEFINITION. The host's interface to a constructed machine: the ports of spec/70_reset_and_hazards.md R246 with the times
at which R235, R237 and R238 permit them. A request that is not permitted is refused and changes nothing. -/

namespace Sys2Proof.Machine

/-- A machine with the one thing the interface remembers: whether the first step has been taken (R235). -/
structure Session where
  machine : State
  started : Bool
  deriving DecidableEq, Repr

/-- What the host can ask (R246; the register reads are R238's). -/
inductive Request where
  | inPush (v : Int)
  | step
  | readOutlog
  | readOut
  | readOutCount
  | readStatus
  | readHaltReason
  | readFault
  | peek (a : Int)
  | readIp
  | readRb
  | readInq
  deriving DecidableEq, Repr

/-- What it is told. -/
inductive Reply where
  | done
  | words (l : List Int)
  | word (v : Int)
  | register (v : Option Int)
  | number (n : Nat)
  | status (x : Status)
  | haltReason (r : Option HaltReason)
  | fault (k : Option Fault)
  /-- PEEK of an address that is not valid (R238): an answer, no fault of the machine. -/
  | outOfBounds (a : Int)
  /-- The request is not permitted now. -/
  | refused
  deriving DecidableEq, Repr

/-- LOAD: the session of a machine just constructed (R230, R246). -/
def openSession (prog inputs : List Int) : Except LoadError Session := do
  let s ← construct config prog inputs
  return { machine := s, started := false }

/-- IN_PUSH: only before the first step, and only a Word (R235, R246; spec/92_eei_decisions.md D18, D28; log entry 24). -/
def servePush (v : Int) (x : Session) : Session × Reply :=
  if x.started = false ∧ config.isWord v then ({ x with machine := x.machine.pushInput v }, .done) else (x, .refused)

/-- STEP: the next step while Running; refused in a terminal machine (R237, R246; spec/60_exceptions.md R204). -/
def serveStep (x : Session) : Session × Reply :=
  match step x.machine with
  | .next t => ({ machine := t, started := true }, .done)
  | .fault _ => (x, .refused)
  | .refused _ => (x, .refused)

/-- PEEK(a): when not Running, Mem[a] or OutOfBounds(a) (R238, R246). -/
def servePeek (a : Int) (x : Session) : Reply :=
  match x.machine.status, checkAddress config a with
  | .running, _ => .refused
  | _, .ok k => .word (x.machine.mem.read k)
  | _, .error _ => .outOfBounds a

/-- A register that the host may read when Halted (R238; log entry 27). -/
def serveHalted (reply : Reply) (x : Session) : Reply :=
  match x.machine.status with
  | .halted => reply
  | .running => .refused
  | .faulted => .refused

/-- The interface: what each request does to the session and what it answers (R235 to R238, R246). -/
def serve (r : Request) (x : Session) : Session × Reply :=
  match r with
  | .inPush v => servePush v x
  | .step => serveStep x
  | .readOutlog => (x, .words x.machine.outlog)
  | .readOut => (x, .register x.machine.out)
  | .readOutCount => (x, .number x.machine.outCount)
  | .readStatus => (x, .status x.machine.status)
  | .readHaltReason => (x, .haltReason x.machine.haltReason)
  | .readFault => (x, .fault x.machine.fault)
  | .peek a => (x, servePeek a x)
  | .readIp => (x, serveHalted (.number x.machine.ip) x)
  | .readRb => (x, serveHalted (.word x.machine.rb) x)
  | .readInq => (x, serveHalted (.words x.machine.inq) x)

end Sys2Proof.Machine
end

