-- ==== Sys2Proof/Machine/Parametric.lean ====
section
/-! DEFINITION. The same machine at any configuration (spec/00_scope.md R5: WORD_BITS and CAP are parameters, and a claim may
quantify over them; spec/41_arithmetic.md R143 f). At `config` it is the machine of Dispatch.lean and Step.lean (log entry
30). -/

namespace Sys2Proof.Machine

/-- The execute phase at a configuration. -/
def execAt (c : Config) (i : Instr) (s : State) : Answer :=
  match i with
  | .add a b d => addAt c a b d s
  | .multiply a b d => multiplyAt c a b d s
  | .readInput d => readInputAt c d s
  | .saveOutput a => saveOutputAt c a s
  | .jumpIfTrue t g => jumpIfTrueAt c t g s
  | .jumpIfFalse t g => jumpIfFalseAt c t g s
  | .lessThan a b d => lessThanAt c a b d s
  | .equals a b d => equalsAt c a b d s
  | .adjustRelativeBase a => adjustRelativeBaseAt c a s
  | .halt => execHalt s

/-- One step at a configuration. -/
def stepAt (c : Config) (s : State) : Answer := stepWith c (execAt c) s

end Sys2Proof.Machine
end

