-- ==== Sys2Proof/Machine/Run.lean ====
section
/-! DEFINITION. A run and how it ends (spec/40_step_and_operands.md R119, spec/70_reset_and_hazards.md R239, R245). -/

namespace Sys2Proof.Machine

/-- The state after at most k steps of a step function: the run goes on while there is a step, which is while STATUS is
Running (spec/40_step_and_operands.md R119). Running out of steps here says nothing about the machine
(spec/60_exceptions.md R210). -/
def runWith (stepOf : State → Answer) : Nat → State → State
  | 0, s => s
  | k + 1, s =>
    match stepOf s with
    | .next t => runWith stepOf k t
    | .fault _ => s
    | .refused _ => s

/-- A run of this hardware, cut after k steps. -/
def run (k : Nat) (s : State) : State := runWith step k s

/-- The run has ended (spec/70_reset_and_hazards.md R239). -/
abbrev State.ended (s : State) : Prop := s.status ≠ .running

/-- The run has ended normally (R239). -/
abbrev State.endedNormally (s : State) : Prop := s.status = .halted

/-- The run has ended abnormally; its result is FAULT alone (R239). -/
abbrev State.endedAbnormally (s : State) : Prop := s.status = .faulted

/-- The result of a run that has ended normally: the pair (OUTLOG, Mem) (R239). -/
def State.result (s : State) : Option (List Int × Memory) :=
  if s.endedNormally then some (s.outlog, s.mem) else none

end Sys2Proof.Machine
end

