-- ==== Sys2Proof/Safety.lean ====
section
/-! DEFINITION. The terms claims use, written from the spec and not from the machine's operations: when an operand has a value
or an address, when an answer raises a fault, the invariants of spec/10_state.md R33, and the record of what a run read, output
and added (spec/44_io.md R172 and R173, spec/45_relbase_halt.md R182). The numbers of spec/00_scope.md R5 are written out, so
that a claim does not rest on `config`. -/

namespace Sys2Proof.Machine

/-! ### Values and addresses of operands -/

/-- A valid address of this hardware: 0 to 2047 (spec/20_memory.md R50, R51; spec/00_scope.md R5). -/
abbrev inMemory (a : Int) : Prop := 0 ≤ a ∧ a < 2048

/-- A Word of this hardware: -2^63 to 2^63 - 1 (spec/00_scope.md R5, R6). -/
abbrev inWordRange (v : Int) : Prop := -9223372036854775808 ≤ v ∧ v ≤ 9223372036854775807

/-- The operand has a value as a source, and it is v (spec/40_step_and_operands.md R121, R127). -/
def SourceValue (s : State) (o : Operand) (v : Int) : Prop :=
  match o with
  | .literal p => v = p
  | .position p => inMemory p ∧ v = s.mem.read p.toNat
  | .relative p => inMemory (s.rb + p) ∧ v = s.mem.read (s.rb + p).toNat

/-- The operand names the valid address k as a destination (spec/40_step_and_operands.md R123, R127). -/
def DestinationAt (s : State) (o : Operand) (k : Nat) : Prop :=
  match o with
  | .literal _ => False
  | .position p => inMemory p ∧ k = p.toNat
  | .relative p => inMemory (s.rb + p) ∧ k = (s.rb + p).toNat

/-- The operand's effective address is x, and x is not valid (spec/40_step_and_operands.md R122; spec/60_exceptions.md R192). -/
def AddressOutside (s : State) (o : Operand) (x : Int) : Prop :=
  match o with
  | .literal _ => False
  | .position p => x = p ∧ ¬ inMemory p
  | .relative p => x = s.rb + p ∧ ¬ inMemory (s.rb + p)

/-- The operand is a Literal, which no instruction can write through (spec/40_step_and_operands.md R124). -/
def IsLiteral (o : Operand) : Prop := ∃ v, o = .literal v

/-! ### Answers -/

/-- The answer raises the fault k: STATUS is Faulted and FAULT is k (spec/60_exceptions.md R201). What else it leaves is said
by statements of its own. -/
def Raises (r : Answer) (k : Fault) : Prop := ∃ t, r = .next t ∧ t.status = .faulted ∧ t.fault = some k


/-- Nothing of how a run ends has changed, or the whole change is a fault taken (spec/60_exceptions.md R201, R202). -/
def EndKeptOrFaulted (s t : State) : Prop :=
  (t.status = s.status ∧ t.haltReason = s.haltReason ∧ t.fault = s.fault) ∨
    ∃ k, t = { s with status := .faulted, fault := some k }

/-- What a four-Word instruction does whose result for two source values is `value` (none: the exact result is not a Word). Its
faults in the order they are tested, then what it writes, which is one Word and IP (spec/41_arithmetic.md R140 to R142,
spec/42_compare.md R150, R151). -/
def StoresResult (i : Instr) (a b d : Operand) (s : State) (value : Int → Int → Option Int) : Prop :=
  (∀ x, AddressOutside s a x → Raises (exec i s) (.outOfBounds x)) ∧
  (∀ va x, SourceValue s a va → AddressOutside s b x → Raises (exec i s) (.outOfBounds x)) ∧
  (∀ va vb, SourceValue s a va → SourceValue s b vb →
    (value va vb = none → Raises (exec i s) .arithmeticOverflow) ∧
    (∀ r, value va vb = some r →
      (IsLiteral d → Raises (exec i s) .invalidDestination) ∧
      (∀ x, AddressOutside s d x → Raises (exec i s) (.outOfBounds x)) ∧
      (∀ k, DestinationAt s d k → exec i s = .next { s with mem := s.mem.write k r, ip := s.ip + 4 })))

/-! ### Encoding and causes -/

/-- The dispatch table: opcode value and operand count (spec/30_encoding.md R86). -/
def dispatchTable : List (Int × Nat) :=
  [(1, 3), (2, 3), (3, 1), (4, 1), (5, 2), (6, 2), (7, 3), (8, 3), (9, 1), (99, 0)]

/-- `digit(w, i) = (w div 10^i) rem 10` (spec/00_scope.md R8). -/
def decimalDigit (w : Int) (i : Nat) : Int := (w.tdiv (10 ^ i)).tmod 10

/-- The operand of mode digit m with parameter word p, for m in 0 to 2 (spec/30_encoding.md R84). -/
def OperandIs (m : Int) (p : Int) (o : Operand) : Prop :=
  (m = 0 ∧ o = .position p) ∨ (m = 1 ∧ o = .literal p) ∨ (m = 2 ∧ o = .relative p)

/-- The causes without their payloads (spec/60_exceptions.md R190). -/
inductive Cause where
  | unknownOpcode | invalidMode | outOfBounds | inputExhausted | arithmeticOverflow | invalidDestination
  deriving DecidableEq, Repr

/-- The cause of a fault. -/
def Fault.cause : Fault → Cause
  | .unknownOpcode _ _ => .unknownOpcode
  | .invalidMode _ _ _ => .invalidMode
  | .outOfBounds _ => .outOfBounds
  | .inputExhausted => .inputExhausted
  | .arithmeticOverflow => .arithmeticOverflow
  | .invalidDestination => .invalidDestination

/-- Which instruction can raise which cause, its decode included: the table of spec/60_exceptions.md R198, with its four
columns for OutOfBounds taken together. -/
def mayRaise : Opcode → Cause → Bool
  | .halt, _ => false
  | _, .unknownOpcode => false
  | _, .invalidMode => true
  | _, .outOfBounds => true
  | op, .inputExhausted => op = .readInput
  | op, .arithmeticOverflow => op ∈ [.add, .multiply, .adjustRelativeBase]
  | op, .invalidDestination => op ∈ [.add, .multiply, .lessThan, .equals, .readInput]

/-! ### Invariants -/

/-- The invariants of spec/10_state.md R33 (a) to (e), with the canonical form of the memory list. -/
structure State.Inv (s : State) : Prop where
  /-- (a) 0 <= IP <= WMAX. -/
  ip_word : (s.ip : Int) ≤ 9223372036854775807
  /-- (b) RB is a Word. -/
  rb_word : inWordRange s.rb
  /-- (c) Every Word of Memory is a Word. -/
  mem_words : ∀ a, inWordRange (s.mem.read a)
  /-- Nothing is listed outside 0 to CAP - 1: Memory has CAP Words (spec/10_state.md R23). -/
  mem_inside : ∀ cell ∈ s.mem, cell.1 < 2048
  /-- The memory list is in its canonical form. -/
  mem_wf : s.mem.wf = true
  /-- (d) Every element of INQ is a Word. -/
  inq_words : ∀ v ∈ s.inq, inWordRange v
  /-- (d) Every element of OUTLOG is a Word. -/
  outlog_words : ∀ v ∈ s.outlog, inWordRange v
  /-- (e) FAULT has a value exactly when STATUS is Faulted. -/
  fault_iff : s.fault.isSome = true ↔ s.status = .faulted
  /-- (e) HALT_REASON has a value exactly when STATUS is Halted. -/
  halt_iff : s.haltReason.isSome = true ↔ s.status = .halted

/-! ### What a run read, output and added -/

/-- The instruction a Running machine is about to execute, if it gets that far: IP is inside Memory and decode gives one. -/
def State.current (s : State) : Option Instr :=
  match s.status, decode (s.fetchWords config) with
  | .running, .ok (i, _) => if s.ip < 2048 then some i else none
  | _, _ => none

/-- What a completed step did beside its write to Memory (spec/44_io.md R172, R173; spec/45_relbase_halt.md R182). -/
inductive Event where
  /-- ReadInput delivered the Word v to its destination. -/
  | delivered (v : Int)
  /-- SaveOutput had the source value v. -/
  | output (v : Int)
  /-- AdjustRelativeBase had the operand value v. -/
  | adjusted (v : Int)
  deriving DecidableEq, Repr

/-- What the step from s to t did, if it completed: a delivered Word is read back from the destination in t, an output or
adjusting value is the source's value in s. -/
def eventOf (s t : State) : List Event :=
  match t.status, s.current with
  | .running, some (.readInput d) =>
    match destAddress config s d with
    | .ok k => [.delivered (t.mem.read k)]
    | .error _ => []
  | .running, some (.saveOutput a) =>
    match readOperand config s a with
    | .ok v => [.output v]
    | .error _ => []
  | .running, some (.adjustRelativeBase a) =>
    match readOperand config s a with
    | .ok v => [.adjusted v]
    | .error _ => []
  | _, _ => []

/-- The events of the first k steps from s, oldest first. -/
def history : Nat → State → List Event
  | 0, _ => []
  | k + 1, s =>
    match step s with
    | .next t => eventOf s t ++ history k t
    | .fault _ => []
    | .refused _ => []

/-- The Words delivered, in order. -/
def deliveredWords (h : List Event) : List Int := h.filterMap fun e => match e with | .delivered v => some v | _ => none

/-- The Words output, in order. -/
def outputWords (h : List Event) : List Int := h.filterMap fun e => match e with | .output v => some v | _ => none

/-- The sum of the adjustments. -/
def adjustmentSum (h : List Event) : Int :=
  (h.filterMap fun e => match e with | .adjusted v => some v | _ => none).sum

/-! ### The program literal -/

/-- A Word as a token: an optional minus sign and its decimal digits (spec/30_encoding.md R99). -/
def printWord (v : Int) : List Char := if v < 0 then '-' :: Nat.toDigits 10 v.natAbs else Nat.toDigits 10 v.natAbs

/-- Words as a program literal, with `before` and `after` around every token (spec/30_encoding.md R98). -/
def printLiteral (before after : List Char) : List Int → List Char
  | [] => []
  | [v] => before ++ printWord v ++ after
  | v :: vs => before ++ printWord v ++ after ++ ',' :: printLiteral before after vs

end Sys2Proof.Machine
end

