-- ==== Sys2Proof/Certificates/Slice0/Obligations.lean ====
section
/-! DEFINITION. The statements for the provers. Each docstring names the rule or the decision of spec/ it formalises; a
statement that rests on a decision of the spec's own (Dn of spec/92_eei_decisions.md) says so. -/

open Sys2Proof
open Sys2Proof.Machine

/-! ## Construction and the invariants -/

/-- spec/70_reset_and_hazards.md R231 and R232: construction loads the program at 0, fills the rest with 0 and gives every other
piece of state its reset value. -/
def Obligations.ConstructionLoadsAndResets : Prop :=
  ∀ prog inputs : List Int, prog.length ≤ 2048 → ∃ s, construct config prog inputs = .ok s ∧
    (∀ a, a < 2048 → s.mem.read a = if a < prog.length then prog.getD a 0 else 0) ∧
    s.ip = 0 ∧ s.rb = 0 ∧ s.inq = inputs ∧ s.outlog = [] ∧ s.status = .running ∧ s.fault = none ∧ s.haltReason = none

/-- spec/70_reset_and_hazards.md R234, decision D3 (log entry 25): a program longer than CAP is refused with OutOfBounds(CAP). -/
def Obligations.LongProgramIsRefused : Prop :=
  ∀ prog inputs : List Int, 2048 < prog.length → construct config prog inputs = .error (.outOfBounds 2048)

/-- spec/10_state.md R33 at reset, and what `State.reset` is: the construction with the empty program and no input, which is the
model's choice (log entry 6). -/
def Obligations.ResetMeetsInvariants : Prop := State.reset.Inv ∧ construct config [] [] = .ok State.reset

/-- spec/70_reset_and_hazards.md R233: under the launch premises P1 to P3 construction gives a machine, and it meets the invariants
of spec/10_state.md R33. That inputs are Words is premise P2, decision D28 (log entry 25). -/
def Obligations.ConstructionMeetsInvariants : Prop :=
  ∀ prog inputs : List Int, launchOk config prog inputs → ∃ s, construct config prog inputs = .ok s ∧ s.Inv

/-- spec/10_state.md R33: each invariant "is kept by every step rule". -/
def Obligations.StepKeepsInvariants : Prop := ∀ s t : State, s.Inv → step s = .next t → t.Inv

/-! ## The ten instructions -/

/-- spec/41_arithmetic.md R141: encoding, the faults in the order tested, and what Add writes. The order of the faults is decision
D11 of spec/92_eei_decisions.md (log entry 23). -/
def Obligations.AddStoresTheCheckedSum : Prop :=
  ∀ (a b d : Operand) (s : State),
    (∀ rest, decode ([1 + 100 * a.mode + 1000 * b.mode + 10000 * d.mode, a.payload, b.payload, d.payload] ++ rest)
      = .ok (.add a b d, rest)) ∧
    StoresResult (.add a b d) a b d s (fun x y => if inWordRange (x + y) then some (x + y) else none)

/-- spec/41_arithmetic.md R142: encoding, the faults in the order tested (decision D11, log entry 23), and what Multiply
writes. -/
def Obligations.MultiplyStoresTheCheckedProduct : Prop :=
  ∀ (a b d : Operand) (s : State),
    (∀ rest, decode ([2 + 100 * a.mode + 1000 * b.mode + 10000 * d.mode, a.payload, b.payload, d.payload] ++ rest)
      = .ok (.multiply a b d, rest)) ∧
    StoresResult (.multiply a b d) a b d s (fun x y => if inWordRange (x * y) then some (x * y) else none)

/-- spec/42_compare.md R150. That operand 1 is the smaller one is decision D34 (log entry 16); the order of the faults is decision
D11 (log entry 23). -/
def Obligations.LessThanStoresTheSignedComparison : Prop :=
  ∀ (a b d : Operand) (s : State),
    (∀ rest, decode ([7 + 100 * a.mode + 1000 * b.mode + 10000 * d.mode, a.payload, b.payload, d.payload] ++ rest)
      = .ok (.lessThan a b d, rest)) ∧
    StoresResult (.lessThan a b d) a b d s (fun x y => some (if x < y then 1 else 0))

/-- spec/42_compare.md R151: encoding, the faults in the order tested (decision D11, log entry 23), and what Equals writes. -/
def Obligations.EqualsStoresTheEquality : Prop :=
  ∀ (a b d : Operand) (s : State),
    (∀ rest, decode ([8 + 100 * a.mode + 1000 * b.mode + 10000 * d.mode, a.payload, b.payload, d.payload] ++ rest)
      = .ok (.equals a b d, rest)) ∧
    StoresResult (.equals a b d) a b d s (fun x y => some (if x = y then 1 else 0))

/-- spec/43_jumps.md R160, R162, R163. That the target is read when the jump does not fire is decision D12 (log entry 15), and
the range of a target is decision D13 (log entry 14). -/
def Obligations.JumpIfTrueJumpsOnNonZero : Prop :=
  ∀ (o g : Operand) (s : State),
    (∀ rest, decode ([5 + 100 * o.mode + 1000 * g.mode, o.payload, g.payload] ++ rest) = .ok (.jumpIfTrue o g, rest)) ∧
    (∀ x, AddressOutside s o x → Raises (exec (.jumpIfTrue o g) s) (.outOfBounds x)) ∧
    (∀ vt x, SourceValue s o vt → AddressOutside s g x → Raises (exec (.jumpIfTrue o g) s) (.outOfBounds x)) ∧
    (∀ vt vg, SourceValue s o vt → SourceValue s g vg →
      (vt ≠ 0 → vg < 0 → Raises (exec (.jumpIfTrue o g) s) (.outOfBounds vg)) ∧
      (vt ≠ 0 → 0 ≤ vg → exec (.jumpIfTrue o g) s = .next { s with ip := vg.toNat }) ∧
      (vt = 0 → exec (.jumpIfTrue o g) s = .next { s with ip := s.ip + 3 }))

/-- spec/43_jumps.md R161, R162, R163, with decisions D12 and D13 as for JumpIfTrue (log entries 14 and 15). -/
def Obligations.JumpIfFalseJumpsOnZero : Prop :=
  ∀ (o g : Operand) (s : State),
    (∀ rest, decode ([6 + 100 * o.mode + 1000 * g.mode, o.payload, g.payload] ++ rest) = .ok (.jumpIfFalse o g, rest)) ∧
    (∀ x, AddressOutside s o x → Raises (exec (.jumpIfFalse o g) s) (.outOfBounds x)) ∧
    (∀ vt x, SourceValue s o vt → AddressOutside s g x → Raises (exec (.jumpIfFalse o g) s) (.outOfBounds x)) ∧
    (∀ vt vg, SourceValue s o vt → SourceValue s g vg →
      (vt = 0 → vg < 0 → Raises (exec (.jumpIfFalse o g) s) (.outOfBounds vg)) ∧
      (vt = 0 → 0 ≤ vg → exec (.jumpIfFalse o g) s = .next { s with ip := vg.toNat }) ∧
      (vt ≠ 0 → exec (.jumpIfFalse o g) s = .next { s with ip := s.ip + 3 }))

/-- spec/44_io.md R170: the empty queue is tested first, then the destination; otherwise the front moves to Memory. That a
faulting ReadInput keeps the queue is decision D16 (log entry 18) and is said here whole; the order of the tests is decision D11
(log entry 23). -/
def Obligations.ReadInputMovesTheFrontToMemory : Prop :=
  ∀ (d : Operand) (s : State),
    (∀ rest, decode ([3 + 100 * d.mode, d.payload] ++ rest) = .ok (.readInput d, rest)) ∧
    (s.inq = [] → exec (.readInput d) s = .next { s with status := .faulted, fault := some .inputExhausted }) ∧
    (∀ v vs, s.inq = v :: vs →
      (IsLiteral d → exec (.readInput d) s = .next { s with status := .faulted, fault := some .invalidDestination }) ∧
      (∀ x, AddressOutside s d x → exec (.readInput d) s = .next { s with status := .faulted, fault := some (.outOfBounds x) }) ∧
      (∀ k, DestinationAt s d k →
        exec (.readInput d) s = .next { s with inq := vs, mem := s.mem.write k v, ip := s.ip + 2 }))

/-- spec/44_io.md R171: SaveOutput appends its source value, which is then the output register's value. -/
def Obligations.SaveOutputAppendsToTheLog : Prop :=
  ∀ (a : Operand) (s : State),
    (∀ rest, decode ([4 + 100 * a.mode, a.payload] ++ rest) = .ok (.saveOutput a, rest)) ∧
    (∀ x, AddressOutside s a x → Raises (exec (.saveOutput a) s) (.outOfBounds x)) ∧
    (∀ va, SourceValue s a va → ∃ t, exec (.saveOutput a) s = .next t ∧
      t = { s with outlog := s.outlog ++ [va], ip := s.ip + 2 } ∧ t.out = some va)

/-- spec/45_relbase_halt.md R181. That an overflowing adjustment faults is decision D14 (log entry 22). -/
def Obligations.AdjustRelativeBaseAddsToTheBase : Prop :=
  ∀ (a : Operand) (s : State),
    (∀ rest, decode ([9 + 100 * a.mode, a.payload] ++ rest) = .ok (.adjustRelativeBase a, rest)) ∧
    (∀ x, AddressOutside s a x → Raises (exec (.adjustRelativeBase a) s) (.outOfBounds x)) ∧
    (∀ va, SourceValue s a va →
      (¬ inWordRange (s.rb + va) → Raises (exec (.adjustRelativeBase a) s) .arithmeticOverflow) ∧
      (inWordRange (s.rb + va) → exec (.adjustRelativeBase a) s = .next { s with rb := s.rb + va, ip := s.ip + 2 }))

/-- spec/45_relbase_halt.md R183: every instruction word w >= 0 with w rem 100 = 99 is Halt (higher digits ignored, decision D9,
log entry 12), and Halt changes STATUS and HALT_REASON only, IP not (decision D5, log entry 17). -/
def Obligations.HaltChangesOnlyTheStatus : Prop :=
  (∀ (w : Int) (rest : List Int), 0 ≤ w → w.tmod 100 = 99 → decode (w :: rest) = .ok (.halt, rest)) ∧
  ∀ s : State, exec .halt s = .next { s with status := .halted, haltReason := some .explicit }

/-! ## Frames -/

/-- The frame of the five instructions that store a Word. The address stored to is computed as the meanings compute it, by
`destAddress` in the state before the step (spec/20_memory.md R66, spec/40_step_and_operands.md R123). ReadInput also removes
the front of INQ. That a fault changes only STATUS and FAULT is decision D16 (log entry 18). -/
def Obligations.StoringInstructionsFrame : Prop :=
  ∀ (a b d : Operand) (s t : State) (i : Instr),
    i ∈ [Instr.add a b d, .multiply a b d, .lessThan a b d, .equals a b d, .readInput d] → exec i s = .next t →
      (∀ x, (∀ k, destAddress config s d = .ok k → x ≠ k) → t.mem.read x = s.mem.read x) ∧
      t.rb = s.rb ∧ t.outlog = s.outlog ∧
      (t.inq = s.inq ∨ (i = .readInput d ∧ t.inq = s.inq.tail)) ∧ EndKeptOrFaulted s t

/-- The frame of the five instructions that store no Word (spec/20_memory.md R66, spec/44_io.md R171): every address of Memory
reads as before, and each changes no register but its own. That a fault changes only STATUS and FAULT is decision D16 (log entry
18), and that Halt keeps IP is D5 (log entry 17). -/
def Obligations.NonStoringInstructionsFrame : Prop :=
  ∀ s t : State,
    (∀ a, exec (.saveOutput a) s = .next t →
      (∀ x, t.mem.read x = s.mem.read x) ∧ t.rb = s.rb ∧ t.inq = s.inq ∧ EndKeptOrFaulted s t) ∧
    (∀ o g, exec (.jumpIfTrue o g) s = .next t ∨ exec (.jumpIfFalse o g) s = .next t →
      (∀ x, t.mem.read x = s.mem.read x) ∧ t.rb = s.rb ∧ t.inq = s.inq ∧ t.outlog = s.outlog ∧ EndKeptOrFaulted s t) ∧
    (∀ a, exec (.adjustRelativeBase a) s = .next t →
      (∀ x, t.mem.read x = s.mem.read x) ∧ t.inq = s.inq ∧ t.outlog = s.outlog ∧ EndKeptOrFaulted s t) ∧
    (exec .halt s = .next t →
      (∀ x, t.mem.read x = s.mem.read x) ∧ t.ip = s.ip ∧ t.rb = s.rb ∧ t.inq = s.inq ∧ t.outlog = s.outlog ∧ t.fault = s.fault)

/-! ## The step -/

/-- A step runs the decoded instruction (spec/40_step_and_operands.md R110, R112, R116): for whatever Words decode to i, and in
particular where the canonical Words of i stand at IP. Nothing is added around exec: the advance of IP is the instruction's
own. -/
def Obligations.StepRunsTheDecodedInstruction : Prop :=
  (∀ (s : State) (i : Instr) (rest : List Int), s.status = .running → s.ip < 2048 →
    decode (s.fetchWords config) = .ok (i, rest) → step s = exec i s) ∧
  (∀ (s : State) (i : Instr), s.status = .running → s.ip + (encode i).length ≤ 2048 →
    (∀ n, n < (encode i).length → s.mem.read (s.ip + n) = (encode i).getD n 0) → step s = exec i s)

/-- spec/40_step_and_operands.md R111. That the bound is CAP and not the program's length is decision D4 (log entry 13). -/
def Obligations.EndTestHaltsPastMemory : Prop :=
  ∀ s : State, s.status = .running → 2048 ≤ s.ip →
    step s = .next { s with status := .halted, haltReason := some .ranOffEnd }

/-- spec/60_exceptions.md R206: the state machine has exactly three states, every step of a Running machine is enabled, and
ReadInput on an empty queue faults instead of waiting. -/
def Obligations.RunningMachineIsNeverStuck : Prop :=
  (∀ x : Status, x = .running ∨ x = .halted ∨ x = .faulted) ∧
  (∀ s : State, s.status = .running → ∃ t, step s = .next t) ∧
  (∀ (s : State) (d : Operand), s.inq = [] → Raises (exec (.readInput d) s) .inputExhausted)

/-- spec/60_exceptions.md R204, decision D27 (log entry 5): a terminal machine has no step and the request is refused; and once
a run has ended, more steps change nothing. Its result is (OUTLOG, Mem) if it ended normally, and no such pair if it ended abnormally
(spec/70_reset_and_hazards.md R239). -/
def Obligations.EndedMachineStaysAsItIs : Prop :=
  (∀ s : State, s.ended → step s = .refused .terminalMachine) ∧
  (∀ (s : State) (j k : Nat), (run k s).ended → run (k + j) s = run k s) ∧
  (∀ s : State, (s.endedNormally → s.result = some (s.outlog, s.mem)) ∧ (s.endedAbnormally → s.result = none))

/-- spec/10_state.md R26: the initial status, every transition of STATUS with what makes it, that the two terminal statuses have
none, and that no instruction reads STATUS. That a fault changes only STATUS and FAULT is decision D16 (log entry 18), and that the
bound of the implicit halt is CAP is decision D4 (log entry 13). -/
def Obligations.StatusChangesAsTheStateMachineSays : Prop :=
  (State.reset.status = .running ∧ State.reset.ip = 0) ∧
  (∀ s t : State, step s = .next t →
    s.status = .running ∧
    (t.status = .halted ↔ 2048 ≤ s.ip ∨ s.current = some .halt) ∧
    (t.status = .faulted ↔ ∃ k, t = { s with status := .faulted, fault := some k }) ∧
    (t.status = .running → t.fault = s.fault ∧ t.haltReason = s.haltReason)) ∧
  (∀ (i : Instr) (s t : State) (x : Status), exec i s = .next t → ∃ y, exec i { s with status := x } = .next { t with status := y })

/-- spec/60_exceptions.md R202, decision D16 (log entry 18): a step that faults changes nothing but STATUS and FAULT. -/
def Obligations.FaultingStepChangesOnlyStatusAndFault : Prop :=
  ∀ s t : State, step s = .next t → t.status = .faulted → ∃ k, t = { s with status := .faulted, fault := some k }

/-- spec/70_reset_and_hazards.md R247: a Running machine's step completes, is an explicit Halt, is the implicit halt, or faults;
a completing step changes IP and at most one of a Word of Memory, RB and OUTLOG, and INQ only when it is a ReadInput. The Word it
changes is the one that `destAddress` gives for the destination operand of the current instruction. That the implicit halt is at
CAP is decision D4 (log entry 13), that a Halt keeps IP is D5 (log entry 17), and that a fault changes only STATUS and FAULT is D16
(log entry 18). -/
def Obligations.RunningStepHasOneOfFourOutcomes : Prop :=
  ∀ s : State, s.status = .running → ∃ t, step s = .next t ∧
    ((t.status = .running ∧ t.haltReason = s.haltReason ∧ t.fault = s.fault ∧
        ((∃ i d k v, s.current = some i ∧ i.destination = some d ∧ destAddress config s d = .ok k ∧
            t.mem = s.mem.write k v ∧ t.rb = s.rb ∧ t.outlog = s.outlog) ∨
         (t.mem = s.mem ∧ t.outlog = s.outlog) ∨
         (t.mem = s.mem ∧ t.rb = s.rb ∧ ∃ v, t.outlog = s.outlog ++ [v])) ∧
        (t.inq = s.inq ∨ ((∃ d, s.current = some (.readInput d)) ∧ ∃ v, s.inq = v :: t.inq))) ∨
     (s.current = some .halt ∧ t = { s with status := .halted, haltReason := some .explicit }) ∨
     (2048 ≤ s.ip ∧ t = { s with status := .halted, haltReason := some .ranOffEnd }) ∨
     (∃ k, t = { s with status := .faulted, fault := some k }))

/-- spec/10_state.md R22 and spec/45_relbase_halt.md R180: RB is changed only by AdjustRelativeBase, by its operand's value. -/
def Obligations.OnlyAdjustRelativeBaseChangesTheBase : Prop :=
  ∀ s t : State, step s = .next t → t.rb ≠ s.rb →
    ∃ a va, s.current = some (.adjustRelativeBase a) ∧ SourceValue s a va ∧ t.rb = s.rb + va

/-- spec/10_state.md R33 (f), over any number of steps from any state: INQ only shrinks and OUTLOG only grows. -/
def Obligations.QueueShrinksAndLogGrows : Prop :=
  ∀ (k : Nat) (s : State), (run k s).inq <:+ s.inq ∧ s.outlog <+: (run k s).outlog

/-! ## Decoding -/

/-- spec/30_encoding.md R81: where the opcode and the modes lie in an instruction word w >= 0, with the digits above them whatever
they are; and that each is the digit the table names. -/
def Obligations.InstructionWordHasTheDecimalLayout : Prop :=
  (∀ c m1 m2 m3 u : Int, 0 ≤ c → c ≤ 99 → 0 ≤ m1 → m1 ≤ 9 → 0 ≤ m2 → m2 ≤ 9 → 0 ≤ m3 → m3 ≤ 9 → 0 ≤ u →
    opcodeDigits (c + 100 * m1 + 1000 * m2 + 10000 * m3 + 100000 * u) = c ∧
    modeDigit (c + 100 * m1 + 1000 * m2 + 10000 * m3 + 100000 * u) 1 = m1 ∧
    modeDigit (c + 100 * m1 + 1000 * m2 + 10000 * m3 + 100000 * u) 2 = m2 ∧
    modeDigit (c + 100 * m1 + 1000 * m2 + 10000 * m3 + 100000 * u) 3 = m3) ∧
  (∀ w : Int, 0 ≤ w → opcodeDigits w = w % 100) ∧
  (∀ (w : Int) (n : Nat), 0 ≤ w → 1 ≤ n → modeDigit w n = w / 10 ^ (n + 1) % 10)

/-- Every instruction word at an IP below CAP, classified: illegal opcode (every negative word among them), first bad mode digit
or first missing parameter word in the order of the operands, or the instruction with its operands
(spec/30_encoding.md R84, R90, R91, R92; spec/40_step_and_operands.md R114, R115). That a bad mode digit is InvalidMode, that
negative words are illegal, that digits above the last mode are ignored, the order of the checks and the payloads of the faults are
decisions D7, D8, D9, D10 and D17 (log entries 20, 21, 12, 23 and 19). -/
def Obligations.EveryInstructionWordIsClassified : Prop :=
  ∀ (s : State) (w : Int), s.status = .running → s.ip < 2048 → w = s.mem.read s.ip →
    (w < 0 → Raises (step s) (.unknownOpcode (w.tmod 100) s.ip) ∧ -99 ≤ w.tmod 100 ∧ w.tmod 100 ≤ 0) ∧
    ((∀ row ∈ dispatchTable, w.tmod 100 ≠ row.1) → Raises (step s) (.unknownOpcode (w.tmod 100) s.ip)) ∧
    (∀ row ∈ dispatchTable, w.tmod 100 = row.1 →
      (∀ n, 1 ≤ n → n ≤ row.2 → (∀ m, 1 ≤ m → m < n → decimalDigit w (m + 1) ≤ 2 ∧ s.ip + m < 2048) →
        (3 ≤ decimalDigit w (n + 1) → Raises (step s) (.invalidMode w n s.ip)) ∧
        (decimalDigit w (n + 1) ≤ 2 → 2048 ≤ s.ip + n → Raises (step s) (.outOfBounds 2048))) ∧
      ((∀ n, 1 ≤ n → n ≤ row.2 → decimalDigit w (n + 1) ≤ 2 ∧ s.ip + n < 2048) →
        ∃ i, step s = exec i s ∧ i.opcode.code = row.1 ∧ i.operands.length = row.2 ∧
          ∀ n (h : n < i.operands.length),
            OperandIs (decimalDigit w (n + 2)) (s.mem.read (s.ip + n + 1)) (i.operands[n])))

/-- spec/30_encoding.md R96: the canonical Words of any instruction, whatever its operands, decode to it and leave the Words
after them; they are as many as its encoded size; and they are Words if its parameter words are. -/
def Obligations.DecodingTheCanonicalWordsGivesTheInstruction : Prop :=
  ∀ (i : Instr) (rest : List Int),
    decode (encode i ++ rest) = .ok (i, rest) ∧ (encode i).length = i.opcode.size ∧
    (i.wf → ∀ w ∈ encode i, inWordRange w)

/-- The other direction (spec/30_encoding.md R93, R96): Words that decode to i are an instruction word whose low digits are those
of the canonical one, with any digits above them (decision D9, log entry 12), then the parameter words. -/
def Obligations.DecodedWordsDifferFromCanonicalOnlyInIgnoredDigits : Prop :=
  ∀ (ws rest : List Int) (i : Instr), decode ws = .ok (i, rest) →
    ∃ w u : Int, ws = w :: (i.operands.map Operand.payload ++ rest) ∧ 0 ≤ u ∧
      w = i.word + 10 ^ (i.operands.length + 2) * u ∧ 0 ≤ i.word ∧ i.word < 10 ^ (i.operands.length + 2)

/-- Words written out from the encoding tables (spec/30_encoding.md R85, R86; the worked decode examples of
spec/40_step_and_operands.md section 3), one of each format and the two fault rows. InvalidMode is decision D7 (log entry 20). -/
def Obligations.SpecExampleWordsDecode : Prop :=
  decode [1002, 4, 3, 4] = .ok (.multiply (.position 4) (.literal 3) (.position 4), []) ∧
  decode [1101, 1, 1, 0] = .ok (.add (.literal 1) (.literal 1) (.position 0), []) ∧
  decode [21202, 0, 2, 1] = .ok (.multiply (.relative 0) (.literal 2) (.relative 1), []) ∧
  decode [204, -1] = .ok (.saveOutput (.relative (-1)), []) ∧
  decode [109, 20] = .ok (.adjustRelativeBase (.literal 20), []) ∧
  decode [1005, 14, 0] = .ok (.jumpIfTrue (.position 14) (.literal 0), []) ∧
  decode [99] = .ok (.halt, []) ∧
  decode [301, 0, 0, 0] = .error (.invalidMode 301 1) ∧
  decode [0] = .error (.unknownOpcode 0)

/-! ## Faults -/

/-- spec/60_exceptions.md R193: InputExhausted is raised by ReadInput with an empty queue, and by nothing else. -/
def Obligations.InputExhaustedExactlyOnEmptyQueue : Prop :=
  ∀ s : State, Raises (step s) .inputExhausted ↔ s.inq = [] ∧ ∃ d, s.current = some (.readInput d)

/-- The table of spec/60_exceptions.md R198, its OutOfBounds columns taken together: an instruction word of a row raises a cause
in some state exactly when the table says so. InvalidMode, the ignored digits of a Halt word and the overflow of
AdjustRelativeBase are decisions D7, D9 and D14 (log entries 20, 12 and 22). -/
def Obligations.InstructionsRaiseExactlyTheirCauses : Prop :=
  ∀ (op : Opcode) (x : Cause), mayRaise op x = true ↔
    ∃ (s : State) (k : Fault), s.ip < 2048 ∧ (s.mem.read s.ip).tmod 100 = op.code ∧ Raises (step s) k ∧ k.cause = x

/-! ## Memory and operands -/

/-- spec/20_memory.md R53: MemRead gives the Word at a valid address, 0 if it is within capacity and not listed as written, and
OutOfBounds at every other address. -/
def Obligations.MemReadIsTotalWithinCapacity : Prop :=
  ∀ (s : State) (a : Int),
    (0 ≤ a ∧ a < 2048 → memRead config s a = .ok (s.mem.read a.toNat)) ∧
    (0 ≤ a ∧ a < 2048 → (∀ cell ∈ s.mem, (cell.1 : Int) ≠ a) → memRead config s a = .ok 0) ∧
    (a < 0 ∨ 2048 ≤ a → memRead config s a = .error (.outOfBounds a))

/-- spec/20_memory.md R60 (b) and R54: after any sequence of writes a read gives the most recent one to that address, or what was
there before if there was none. -/
def Obligations.ReadGivesTheMostRecentWrite : Prop :=
  ∀ (m : Memory) (writes : List (Nat × Int)) (a : Nat),
    (writes.foldl (fun m e => m.write e.1 e.2) m).read a =
      match writes.reverse.find? (fun e => e.1 == a) with
      | some e => e.2
      | none => m.read a

/-- Two memories in the canonical form that read alike are the same list (the model's own convention, log entry 3). -/
def Obligations.CanonicalMemoriesThatReadAlikeAreEqual : Prop :=
  ∀ m m' : Memory, m.wf = true → m'.wf = true → (∀ a, m.read a = m'.read a) → m = m'

/-- spec/40_step_and_operands.md R121 to R123 and R127: the three addressing modes as a source and as a destination. That RB + p is
the exact sum, never wrapped, is decision D15 (log entry 22). -/
def Obligations.AddressingModesResolveAsTheTableSays : Prop :=
  ∀ (s : State) (p : Int),
    (readOperand config s (.literal p) = .ok p ∧ destAddress config s (.literal p) = .error .invalidDestination) ∧
    (0 ≤ p ∧ p < 2048 →
      readOperand config s (.position p) = .ok (s.mem.read p.toNat) ∧ destAddress config s (.position p) = .ok p.toNat) ∧
    (p < 0 ∨ 2048 ≤ p →
      readOperand config s (.position p) = .error (.outOfBounds p) ∧
      destAddress config s (.position p) = .error (.outOfBounds p)) ∧
    (0 ≤ s.rb + p ∧ s.rb + p < 2048 →
      readOperand config s (.relative p) = .ok (s.mem.read (s.rb + p).toNat) ∧
      destAddress config s (.relative p) = .ok (s.rb + p).toNat) ∧
    (s.rb + p < 0 ∨ 2048 ≤ s.rb + p →
      readOperand config s (.relative p) = .error (.outOfBounds (s.rb + p)) ∧
      destAddress config s (.relative p) = .error (.outOfBounds (s.rb + p)))

/-- spec/20_memory.md R63 and R65: the Word that any of the five storing instructions stores is what the next step fetches and
executes. If the step of i completes with its destination at address k, then IP is past i, and for whatever Words stand there now
(the stored Word at k, the old Word at every other address) and decode to j, the next step is exec of j. -/
def Obligations.StoredWordIsExecutedNext : Prop :=
  ∀ (s t : State) (i : Instr) (d : Operand) (k : Nat), s.current = some i → i.destination = some d →
    destAddress config s d = .ok k → step s = .next t → t.status = .running →
      t.ip = s.ip + i.opcode.size ∧
      ∀ (ws rest : List Int) (j : Instr), decode ws = .ok (j, rest) → t.ip + ws.length ≤ 2048 →
        (∀ n, n < ws.length → (if t.ip + n = k then t.mem.read k else s.mem.read (t.ip + n)) = ws.getD n 0) →
          step t = exec j t

/-! ## Arithmetic and comparison laws -/

/-- spec/42_compare.md R152 (a) and (c): for Words x and y exactly one of LessThan x y, LessThan y x and Equals x y stores 1 and
the other two store 0. The direction of LessThan is decision D34 (log entry 16). -/
def Obligations.ExactlyOneComparisonHolds : Prop :=
  ∀ (s : State) (x y : Int) (d : Operand) (k : Nat), DestinationAt s d k →
    ∃ t1 t2 t3, exec (.lessThan (.literal x) (.literal y) d) s = .next t1 ∧
      exec (.lessThan (.literal y) (.literal x) d) s = .next t2 ∧ exec (.equals (.literal x) (.literal y) d) s = .next t3 ∧
      [(1 : Int), 0, 0] ∈ [[t1.mem.read k, t2.mem.read k, t3.mem.read k], [t2.mem.read k, t1.mem.read k, t3.mem.read k],
        [t3.mem.read k, t1.mem.read k, t2.mem.read k]]

/-- spec/41_arithmetic.md R142: any two values in -2^31 to 2^31 - 1 multiply without a fault. -/
def Obligations.ProductsOfThirtyTwoBitValuesNeverOverflow : Prop :=
  ∀ (s : State) (x y : Int) (d : Operand) (k : Nat), -2147483648 ≤ x → x ≤ 2147483647 → -2147483648 ≤ y → y ≤ 2147483647 →
    DestinationAt s d k →
      exec (.multiply (.literal x) (.literal y) d) s = .next { s with mem := s.mem.write k (x * y), ip := s.ip + 4 }

/-- spec/41_arithmetic.md R143 (f): a run that does not fault with ArithmeticOverflow at 64 bits is the same run at any greater
width, the capacity being the same. The machine at another width is the model's own `stepAt` (log entry 30, DESIGN CHOICE);
that this hardware has 64 bits is decision D1 (log entry 2). -/
def Obligations.WiderWordsRunAlike : Prop :=
  ∀ (c : Config), 64 ≤ c.wordBits → c.cap = 2048 → ∀ (k : Nat) (s : State),
    (run k s).fault ≠ some .arithmeticOverflow → runWith (stepAt c) k s = run k s

/-! ## Input and output -/

/-- spec/44_io.md R172 and R173, spec/45_relbase_halt.md R182, over any number of steps from any state: the Words delivered, in
order, are what was taken from the front of INQ; OUTLOG grew by the Words output, in order; RB grew by the sum of the
adjustments. -/
def Obligations.HistoryAccountsForQueueLogAndBase : Prop :=
  ∀ (k : Nat) (s : State),
    s.inq = deliveredWords (history k s) ++ (run k s).inq ∧
    (run k s).outlog = s.outlog ++ outputWords (history k s) ∧
    (run k s).rb = s.rb + adjustmentSum (history k s)

/-- spec/10_state.md R25 and spec/44_io.md R173: no instruction reads OUTLOG. Whatever stands in it, the step is the same and
appends the same. -/
def Obligations.OutputLogIsNeverRead : Prop :=
  ∀ (s t : State) (l : List Int), step s = .next t →
    step { s with outlog := l ++ s.outlog } = .next { t with outlog := l ++ t.outlog }

/-- spec/44_io.md R172: a program cannot ask whether input is available. More Words at the back of INQ change no step that does
not raise InputExhausted. -/
def Obligations.MoreInputChangesOnlyExhaustion : Prop :=
  ∀ (s t : State) (l : List Int), step s = .next t → t.fault ≠ some .inputExhausted →
    step { s with inq := s.inq ++ l } = .next { t with inq := t.inq ++ l }

/-! ## The host interface -/

/-- spec/70_reset_and_hazards.md R237, decisions D18 and D23 (log entry 24): once the first step has been taken the host changes the
machine only by letting it take its next step. -/
def Obligations.HostOnlyLetsTheMachineStep : Prop :=
  ∀ (r : Request) (x : Session), x.started = true → (serve r x).1.machine ≠ x.machine →
    r = .step ∧ step x.machine = .next (serve r x).1.machine

/-- spec/70_reset_and_hazards.md R238 and R246, decision D31 (log entry 27): PEEK is refused while Running, gives the Word at a valid address and
OutOfBounds(a) at any other, and changes nothing. -/
def Obligations.PeekReadsMemoryOfAnEndedMachine : Prop :=
  ∀ (x : Session) (a : Int),
    (serve (.peek a) x).1 = x ∧
    (x.machine.status = .running → (serve (.peek a) x).2 = .refused) ∧
    (x.machine.ended → 0 ≤ a → a < 2048 → (serve (.peek a) x).2 = .word (x.machine.mem.read a.toNat)) ∧
    (x.machine.ended → (a < 0 ∨ 2048 ≤ a) → (serve (.peek a) x).2 = .outOfBounds a)

/-- spec/70_reset_and_hazards.md R235, decision D18 (log entry 24): pushing Words one after another before the first step is the
same as constructing with them at the back of the inputs; after the first step a push is refused and changes nothing. Only Words
are pushed, decision D28 (log entry 24). -/
def Obligations.PushingInputIsConstructingWithIt : Prop :=
  (∀ (prog inputs more : List Int) (x : Session), openSession prog inputs = .ok x → (∀ v ∈ more, inWordRange v) →
    openSession prog (inputs ++ more) = .ok (more.foldl (fun x v => (serve (.inPush v) x).1) x)) ∧
  (∀ (v : Int) (x : Session), x.started = true → serve (.inPush v) x = (x, .refused))

/-- spec/30_encoding.md R98 to R100, decision D26 (log entry 26): a literal of one or more Words with spaces around its tokens
gives those Words; whatever is accepted holds only Words, one for each comma and one more; and a token that is empty, begins
with a plus sign or is no Word is refused. -/
def Obligations.ProgramLiteralIsParsedAsWritten : Prop :=
  (∀ (before after : Nat) (ws : List Int), ws ≠ [] → (∀ w ∈ ws, inWordRange w) →
    parseLiteral config (printLiteral (List.replicate before ' ') (List.replicate after ' ') ws) = .ok ws) ∧
  (∀ (text : List Char) (ws : List Int), parseLiteral config text = .ok ws →
    (∀ w ∈ ws, inWordRange w) ∧ ws.length = text.count ',' + 1) ∧
  parseToken config [] = .error (.parseError []) ∧
  (∀ cs : List Char, (∀ ch ∈ cs, ch.isWhitespace = false) → parseToken config ('+' :: cs) = .error (.parseError ('+' :: cs))) ∧
  (∀ v : Int, ¬ inWordRange v → parseToken config (printWord v) = .error (.parseError (printWord v)))

/-- The host's table words (log entries 7 and 8): the instruction the decoder reads from a table word is the one that step runs
where `withFetchWord` places it, in any state. -/
def Obligations.PlacedTableWordIsRunNext : Prop :=
  ∀ (s : State) (nbits w : Nat) (i : Instr), decodeTableWord nbits w = some i →
    step (s.withFetchWord nbits w) = exec i (s.withFetchWord nbits w)
end

