-- ==== Sys2Proof/Laws/Config.lean ====
section
/-! SUPPORT. The parameters of this hardware as numbers (spec/00_scope.md R5). -/

namespace Sys2Proof

@[simp] theorem config_cap : config.cap = 2048 := rfl

@[simp] theorem config_wordBits : config.wordBits = 64 := rfl

@[simp] theorem config_wmin : config.wmin = -9223372036854775808 := by decide

@[simp] theorem config_wmax : config.wmax = 9223372036854775807 := by decide

/-- The range test of `config` is the one claims are written with. -/
theorem config_isWord_iff (v : Int) : config.isWord v ↔ Machine.inWordRange v := by
  simp [Config.isWord, Machine.inWordRange]

/-- A wider Word admits every narrower one (spec/00_scope.md R5). -/
theorem Config.isWord_of_wider {c c' : Config} (h : c.wordBits ≤ c'.wordBits) {v : Int} (hv : c.isWord v) : c'.isWord v := by
  have hpow : 2 ^ (c.wordBits - 1) ≤ 2 ^ (c'.wordBits - 1) := Nat.pow_le_pow_right (by decide) (by omega)
  simp only [Config.isWord, Config.wmin, Config.wmax, wordMin, wordMax] at *
  omega

end Sys2Proof
end

