-- ==== Sys2Proof/Laws/State.lean ====
section
/-! SUPPORT. What each update of the state does to each field, so that no proof unfolds a record update. -/

namespace Sys2Proof.Machine

@[simp] theorem State.writeMem_mem (s : State) (a : Nat) (v : Int) : (s.writeMem a v).mem = s.mem.write a v := rfl
@[simp] theorem State.writeMem_ip (s : State) (a : Nat) (v : Int) : (s.writeMem a v).ip = s.ip := rfl
@[simp] theorem State.writeMem_rb (s : State) (a : Nat) (v : Int) : (s.writeMem a v).rb = s.rb := rfl
@[simp] theorem State.writeMem_inq (s : State) (a : Nat) (v : Int) : (s.writeMem a v).inq = s.inq := rfl
@[simp] theorem State.writeMem_outlog (s : State) (a : Nat) (v : Int) : (s.writeMem a v).outlog = s.outlog := rfl
@[simp] theorem State.writeMem_status (s : State) (a : Nat) (v : Int) : (s.writeMem a v).status = s.status := rfl
@[simp] theorem State.writeMem_haltReason (s : State) (a : Nat) (v : Int) : (s.writeMem a v).haltReason = s.haltReason := rfl
@[simp] theorem State.writeMem_fault (s : State) (a : Nat) (v : Int) : (s.writeMem a v).fault = s.fault := rfl

@[simp] theorem State.setIp_mem (s : State) (a : Nat) : (s.setIp a).mem = s.mem := rfl
@[simp] theorem State.setIp_ip (s : State) (a : Nat) : (s.setIp a).ip = a := rfl
@[simp] theorem State.setIp_rb (s : State) (a : Nat) : (s.setIp a).rb = s.rb := rfl
@[simp] theorem State.setIp_inq (s : State) (a : Nat) : (s.setIp a).inq = s.inq := rfl
@[simp] theorem State.setIp_outlog (s : State) (a : Nat) : (s.setIp a).outlog = s.outlog := rfl
@[simp] theorem State.setIp_status (s : State) (a : Nat) : (s.setIp a).status = s.status := rfl
@[simp] theorem State.setIp_haltReason (s : State) (a : Nat) : (s.setIp a).haltReason = s.haltReason := rfl
@[simp] theorem State.setIp_fault (s : State) (a : Nat) : (s.setIp a).fault = s.fault := rfl

@[simp] theorem State.advance_mem (s : State) (n : Nat) : (s.advance n).mem = s.mem := rfl
@[simp] theorem State.advance_ip (s : State) (n : Nat) : (s.advance n).ip = s.ip + n := rfl
@[simp] theorem State.advance_rb (s : State) (n : Nat) : (s.advance n).rb = s.rb := rfl
@[simp] theorem State.advance_inq (s : State) (n : Nat) : (s.advance n).inq = s.inq := rfl
@[simp] theorem State.advance_outlog (s : State) (n : Nat) : (s.advance n).outlog = s.outlog := rfl
@[simp] theorem State.advance_status (s : State) (n : Nat) : (s.advance n).status = s.status := rfl
@[simp] theorem State.advance_haltReason (s : State) (n : Nat) : (s.advance n).haltReason = s.haltReason := rfl
@[simp] theorem State.advance_fault (s : State) (n : Nat) : (s.advance n).fault = s.fault := rfl

@[simp] theorem State.setRb_mem (s : State) (v : Int) : (s.setRb v).mem = s.mem := rfl
@[simp] theorem State.setRb_ip (s : State) (v : Int) : (s.setRb v).ip = s.ip := rfl
@[simp] theorem State.setRb_rb (s : State) (v : Int) : (s.setRb v).rb = v := rfl
@[simp] theorem State.setRb_inq (s : State) (v : Int) : (s.setRb v).inq = s.inq := rfl
@[simp] theorem State.setRb_outlog (s : State) (v : Int) : (s.setRb v).outlog = s.outlog := rfl
@[simp] theorem State.setRb_status (s : State) (v : Int) : (s.setRb v).status = s.status := rfl
@[simp] theorem State.setRb_haltReason (s : State) (v : Int) : (s.setRb v).haltReason = s.haltReason := rfl
@[simp] theorem State.setRb_fault (s : State) (v : Int) : (s.setRb v).fault = s.fault := rfl

@[simp] theorem State.popInput_mem (s : State) : s.popInput.mem = s.mem := rfl
@[simp] theorem State.popInput_ip (s : State) : s.popInput.ip = s.ip := rfl
@[simp] theorem State.popInput_rb (s : State) : s.popInput.rb = s.rb := rfl
@[simp] theorem State.popInput_inq (s : State) : s.popInput.inq = s.inq.tail := rfl
@[simp] theorem State.popInput_outlog (s : State) : s.popInput.outlog = s.outlog := rfl
@[simp] theorem State.popInput_status (s : State) : s.popInput.status = s.status := rfl
@[simp] theorem State.popInput_haltReason (s : State) : s.popInput.haltReason = s.haltReason := rfl
@[simp] theorem State.popInput_fault (s : State) : s.popInput.fault = s.fault := rfl

@[simp] theorem State.pushInput_mem (s : State) (v : Int) : (s.pushInput v).mem = s.mem := rfl
@[simp] theorem State.pushInput_ip (s : State) (v : Int) : (s.pushInput v).ip = s.ip := rfl
@[simp] theorem State.pushInput_rb (s : State) (v : Int) : (s.pushInput v).rb = s.rb := rfl
@[simp] theorem State.pushInput_inq (s : State) (v : Int) : (s.pushInput v).inq = s.inq ++ [v] := rfl
@[simp] theorem State.pushInput_outlog (s : State) (v : Int) : (s.pushInput v).outlog = s.outlog := rfl
@[simp] theorem State.pushInput_status (s : State) (v : Int) : (s.pushInput v).status = s.status := rfl
@[simp] theorem State.pushInput_haltReason (s : State) (v : Int) : (s.pushInput v).haltReason = s.haltReason := rfl
@[simp] theorem State.pushInput_fault (s : State) (v : Int) : (s.pushInput v).fault = s.fault := rfl

@[simp] theorem State.saveOutput_mem (s : State) (v : Int) : (s.saveOutput v).mem = s.mem := rfl
@[simp] theorem State.saveOutput_ip (s : State) (v : Int) : (s.saveOutput v).ip = s.ip := rfl
@[simp] theorem State.saveOutput_rb (s : State) (v : Int) : (s.saveOutput v).rb = s.rb := rfl
@[simp] theorem State.saveOutput_inq (s : State) (v : Int) : (s.saveOutput v).inq = s.inq := rfl
@[simp] theorem State.saveOutput_outlog (s : State) (v : Int) : (s.saveOutput v).outlog = s.outlog ++ [v] := rfl
@[simp] theorem State.saveOutput_status (s : State) (v : Int) : (s.saveOutput v).status = s.status := rfl
@[simp] theorem State.saveOutput_haltReason (s : State) (v : Int) : (s.saveOutput v).haltReason = s.haltReason := rfl
@[simp] theorem State.saveOutput_fault (s : State) (v : Int) : (s.saveOutput v).fault = s.fault := rfl

@[simp] theorem State.halt_mem (s : State) (r : HaltReason) : (s.halt r).mem = s.mem := rfl
@[simp] theorem State.halt_ip (s : State) (r : HaltReason) : (s.halt r).ip = s.ip := rfl
@[simp] theorem State.halt_rb (s : State) (r : HaltReason) : (s.halt r).rb = s.rb := rfl
@[simp] theorem State.halt_inq (s : State) (r : HaltReason) : (s.halt r).inq = s.inq := rfl
@[simp] theorem State.halt_outlog (s : State) (r : HaltReason) : (s.halt r).outlog = s.outlog := rfl
@[simp] theorem State.halt_status (s : State) (r : HaltReason) : (s.halt r).status = .halted := rfl
@[simp] theorem State.halt_haltReason (s : State) (r : HaltReason) : (s.halt r).haltReason = some r := rfl
@[simp] theorem State.halt_fault (s : State) (r : HaltReason) : (s.halt r).fault = s.fault := rfl

@[simp] theorem takeFault_mem (s : State) (k : Fault) : (takeFault k s).mem = s.mem := rfl
@[simp] theorem takeFault_ip (s : State) (k : Fault) : (takeFault k s).ip = s.ip := rfl
@[simp] theorem takeFault_rb (s : State) (k : Fault) : (takeFault k s).rb = s.rb := rfl
@[simp] theorem takeFault_inq (s : State) (k : Fault) : (takeFault k s).inq = s.inq := rfl
@[simp] theorem takeFault_outlog (s : State) (k : Fault) : (takeFault k s).outlog = s.outlog := rfl
@[simp] theorem takeFault_status (s : State) (k : Fault) : (takeFault k s).status = .faulted := rfl
@[simp] theorem takeFault_haltReason (s : State) (k : Fault) : (takeFault k s).haltReason = s.haltReason := rfl
@[simp] theorem takeFault_fault (s : State) (k : Fault) : (takeFault k s).fault = some k := rfl

/-- Two states with equal fields are equal. -/
theorem State.eq_of_fields {s t : State} (hmem : s.mem = t.mem) (hip : s.ip = t.ip) (hrb : s.rb = t.rb) (hinq : s.inq = t.inq)
    (hout : s.outlog = t.outlog) (hst : s.status = t.status) (hhalt : s.haltReason = t.haltReason) (hf : s.fault = t.fault) :
    s = t := by
  cases s; cases t; simp_all

end Sys2Proof.Machine
end

