-- ==== Sys2Proof/Laws/Operands.lean ====
section
/-! SUPPORT. Everything the shared operations can do, said once: the address decoder, the operand resolver and the overflow
test, in the terms claims use (Sys2Proof/Safety.lean). -/

namespace Sys2Proof.Machine

/-! ### Except -/

theorem bind_eq_ok_iff {ε α β : Type} {x : Except ε α} {f : α → Except ε β} {b : β} :
    (x >>= f) = .ok b ↔ ∃ a, x = .ok a ∧ f a = .ok b := by
  cases x <;> simp [bind, Except.bind]

theorem bind_eq_error_iff {ε α β : Type} {x : Except ε α} {f : α → Except ε β} {e : ε} :
    (x >>= f) = .error e ↔ x = .error e ∨ ∃ a, x = .ok a ∧ f a = .error e := by
  cases x <;> simp [bind, Except.bind]

@[simp] theorem bind_ok {ε α β : Type} (a : α) (f : α → Except ε β) : (Except.ok a >>= f) = f a := rfl

@[simp] theorem bind_error {ε α β : Type} (e : ε) (f : α → Except ε β) : ((Except.error e : Except ε α) >>= f) = .error e := rfl

@[simp] theorem pure_eq_ok {ε α : Type} (a : α) : (pure a : Except ε α) = .ok a := rfl

theorem guard_ok_iff {ε α : Type} {p : Prop} [Decidable p] {a b : α} {e : ε} :
    (if p then Except.ok a else Except.error e) = .ok b ↔ p ∧ b = a := by
  by_cases h : p <;> simp [h, eq_comm]

theorem guard_error_iff {ε α : Type} {p : Prop} [Decidable p] {a : α} {e e' : ε} :
    (if p then Except.ok a else Except.error e) = .error e' ↔ ¬ p ∧ e' = e := by
  by_cases h : p <;> simp [h, eq_comm]

/-! ### Addresses -/

theorem checkAddress_ok_iff {a : Int} {k : Nat} : checkAddress config a = .ok k ↔ inMemory a ∧ k = a.toNat := guard_ok_iff

theorem checkAddress_error_iff {a : Int} {e : Fault} : checkAddress config a = .error e ↔ ¬ inMemory a ∧ e = .outOfBounds a :=
  guard_error_iff

theorem memRead_ok_iff {s : State} {a : Int} {v : Int} :
    memRead config s a = .ok v ↔ inMemory a ∧ v = s.mem.read a.toNat := by
  simp only [memRead, bind_eq_ok_iff, checkAddress_ok_iff, pure_eq_ok, Except.ok.injEq]
  constructor
  · rintro ⟨k, ⟨h, rfl⟩, rfl⟩; exact ⟨h, rfl⟩
  · rintro ⟨h, rfl⟩; exact ⟨_, ⟨h, rfl⟩, rfl⟩

theorem memRead_error_iff {s : State} {a : Int} {e : Fault} :
    memRead config s a = .error e ↔ ¬ inMemory a ∧ e = .outOfBounds a := by
  simp [memRead, bind_eq_error_iff, checkAddress_error_iff]

/-! ### Operands -/

/-- Reading an operand answers exactly the value it has as a source (spec/40_step_and_operands.md R121). -/
theorem readOperand_ok_iff {s : State} {o : Operand} {v : Int} : readOperand config s o = .ok v ↔ SourceValue s o v := by
  cases o with
  | literal p => simp [readOperand, SourceValue, eq_comm]
  | position p => exact memRead_ok_iff
  | relative p => exact memRead_ok_iff

/-- Reading an operand fails exactly when its effective address is not valid (spec/40_step_and_operands.md R121). -/
theorem readOperand_error_iff {s : State} {o : Operand} {e : Fault} :
    readOperand config s o = .error e ↔ ∃ x, AddressOutside s o x ∧ e = .outOfBounds x := by
  cases o with
  | literal v => simp [readOperand, AddressOutside]
  | position p =>
    simp only [readOperand, AddressOutside, memRead_error_iff]
    constructor
    · rintro ⟨h, rfl⟩; exact ⟨p, ⟨rfl, h⟩, rfl⟩
    · rintro ⟨x, ⟨rfl, h⟩, rfl⟩; exact ⟨h, rfl⟩
  | relative p =>
    simp only [readOperand, AddressOutside, memRead_error_iff, relativeAddress]
    constructor
    · rintro ⟨h, rfl⟩; exact ⟨_, ⟨rfl, h⟩, rfl⟩
    · rintro ⟨x, ⟨rfl, h⟩, rfl⟩; exact ⟨h, rfl⟩

/-- The destination address is exactly the one the operand names (spec/40_step_and_operands.md R123). -/
theorem destAddress_ok_iff {s : State} {o : Operand} {k : Nat} : destAddress config s o = .ok k ↔ DestinationAt s o k := by
  cases o <;> simp [destAddress, DestinationAt, checkAddress_ok_iff, relativeAddress]

/-- A destination fails exactly when it is a Literal or its effective address is not valid (spec/40_step_and_operands.md R123,
R124). -/
theorem destAddress_error_iff {s : State} {o : Operand} {e : Fault} :
    destAddress config s o = .error e ↔
      (IsLiteral o ∧ e = .invalidDestination) ∨ ∃ x, AddressOutside s o x ∧ e = .outOfBounds x := by
  cases o with
  | literal v => simp [destAddress, AddressOutside, IsLiteral, eq_comm]
  | position p =>
    simp only [destAddress, AddressOutside, checkAddress_error_iff, IsLiteral]
    constructor
    · rintro ⟨h, rfl⟩; exact .inr ⟨_, ⟨rfl, h⟩, rfl⟩
    · rintro (⟨⟨v, hv⟩, -⟩ | ⟨x, ⟨rfl, h⟩, rfl⟩)
      · exact absurd hv (by simp)
      · exact ⟨h, rfl⟩
  | relative p =>
    simp only [destAddress, AddressOutside, checkAddress_error_iff, IsLiteral, relativeAddress]
    constructor
    · rintro ⟨h, rfl⟩; exact .inr ⟨_, ⟨rfl, h⟩, rfl⟩
    · rintro (⟨⟨v, hv⟩, -⟩ | ⟨x, ⟨rfl, h⟩, rfl⟩)
      · exact absurd hv (by simp)
      · exact ⟨h, rfl⟩

/-- A destination lies in Memory. -/
theorem DestinationAt.lt {s : State} {o : Operand} {k : Nat} (h : DestinationAt s o k) : k < 2048 := by
  cases o with
  | literal v => exact absurd h (by simp [DestinationAt])
  | position p => obtain ⟨⟨h0, h1⟩, rfl⟩ := h; omega
  | relative p => obtain ⟨⟨h0, h1⟩, rfl⟩ := h; omega

/-! ### The overflow test and the queue -/

theorem checkWord_ok_iff {v r : Int} : checkWord config v = .ok r ↔ inWordRange v ∧ r = v := by
  rw [checkWord, guard_ok_iff, config_isWord_iff]

theorem checkWord_error_iff {v : Int} {e : Fault} : checkWord config v = .error e ↔ ¬ inWordRange v ∧ e = .arithmeticOverflow := by
  rw [checkWord, guard_error_iff, config_isWord_iff]

theorem frontInput_ok_iff {s : State} {v : Int} : frontInput s = .ok v ↔ s.inq = v :: s.inq.tail := by
  unfold frontInput; split <;> simp_all

theorem frontInput_error_iff {s : State} {e : Fault} : frontInput s = .error e ↔ s.inq = [] ∧ e = .inputExhausted := by
  unfold frontInput; split <;> simp_all [eq_comm]

theorem jumpTarget_ok_iff {v : Int} {k : Nat} : jumpTarget v = .ok k ↔ 0 ≤ v ∧ k = v.toNat := by
  by_cases h : v < 0
  · simp [jumpTarget, h]
  · simp [jumpTarget, h, eq_comm, Int.not_lt.mp h]

theorem jumpTarget_error_iff {v : Int} {e : Fault} : jumpTarget v = .error e ↔ v < 0 ∧ e = .outOfBounds v := by
  by_cases h : v < 0 <;> simp [jumpTarget, h, eq_comm]

/-! ### The end of an execute phase -/

/-- An execute phase answers a next state and nothing else: the scheduled one, or the fault taken. -/
theorem commit_eq_next_iff {s t : State} {r : Except Fault State} :
    commit s r = .next t ↔ r = .ok t ∨ ∃ k, r = .error k ∧ t = takeFault k s := by
  cases r <;> simp [commit, eq_comm]

theorem commit_ok (s t : State) : commit s (.ok t) = .next t := rfl

theorem commit_error (s : State) (k : Fault) : commit s (.error k) = .next (takeFault k s) := rfl

theorem raises_takeFault (s : State) (k : Fault) : Raises (.next (takeFault k s)) k := ⟨_, rfl, rfl, rfl⟩

end Sys2Proof.Machine
end

