-- ==== Sys2Proof/Laws/Decode.lean ====
section
/-! SUPPORT. What the decoder does, said once: which rows the dispatch table has, what one operand takes from the Words, and
what a decoded instruction says about the Words it came from (spec/30_encoding.md R80 to R96). -/

namespace Sys2Proof

/-- Two truncating divisions are one. -/
theorem tdiv_tdiv (a : Int) {b c : Int} (hb : 0 ≤ b) : (a.tdiv b).tdiv c = a.tdiv (b * c) := by
  rcases le_total 0 a with h | h
  · rw [Int.tdiv_eq_ediv_of_nonneg h, Int.tdiv_eq_ediv_of_nonneg h, Int.tdiv_eq_ediv_of_nonneg (Int.ediv_nonneg h hb),
      Int.ediv_ediv_of_nonneg hb]
  · obtain ⟨k, rfl⟩ : ∃ k, a = -k := ⟨-a, by omega⟩
    have hk : 0 ≤ k := by omega
    rw [Int.neg_tdiv, Int.neg_tdiv, Int.neg_tdiv, Int.tdiv_eq_ediv_of_nonneg hk, Int.tdiv_eq_ediv_of_nonneg hk,
      Int.tdiv_eq_ediv_of_nonneg (Int.ediv_nonneg hk hb), Int.ediv_ediv_of_nonneg hb]

theorem Operand.mode_bounds (o : Operand) : 0 ≤ o.mode ∧ o.mode ≤ 2 := by cases o <;> simp [Operand.mode]

/-- No two rows of the dispatch table share an opcode (spec/30_encoding.md R86). -/
theorem Opcode.code_injective {op op' : Opcode} (h : op.code = op'.code) : op = op' := by
  cases op <;> cases op' <;> first | rfl | exact absurd h (by decide)

theorem Opcode.mem_all (op : Opcode) : op ∈ Opcode.all := by cases op <;> decide

/-- The table is searched by its column "opcode" (spec/30_encoding.md R86). -/
theorem Opcode.ofCode_eq_some_iff {c : Int} {op : Opcode} : Opcode.ofCode c = some op ↔ c = op.code := by
  constructor
  · intro h
    have hcode : (op.code == c) = true := List.find?_some (p := fun op : Opcode => op.code == c) h
    exact (beq_iff_eq.mp hcode).symm
  · rintro rfl
    cases op <;> rfl

/-- An opcode value that is in no row is illegal (spec/30_encoding.md R90). -/
theorem Opcode.ofCode_eq_none_iff {c : Int} : Opcode.ofCode c = none ↔ ∀ op : Opcode, c ≠ op.code := by
  constructor
  · intro h op hc
    rw [Opcode.ofCode_eq_some_iff.mpr hc] at h
    exact absurd h (by simp)
  · intro h
    cases hc : Opcode.ofCode c with
    | none => rfl
    | some op => exact absurd (Opcode.ofCode_eq_some_iff.mp hc) (h op)

/-- The mode a digit selects (spec/30_encoding.md R84). -/
theorem modeOfDigit_eq_some_iff {m : Int} {x : Mode} {p : Int} : modeOfDigit m = some x ↔ m = (x.operand p).mode := by
  unfold modeOfDigit
  cases x <;> simp only [Mode.operand, Operand.mode] <;> split <;> (try split) <;> (try split) <;> simp_all

theorem modeOfDigit_eq_none_iff {m : Int} : modeOfDigit m = none ↔ m ≠ 0 ∧ m ≠ 1 ∧ m ≠ 2 := by
  unfold modeOfDigit
  split <;> (try split) <;> (try split) <;> simp_all

theorem Mode.operand_payload (x : Mode) (p : Int) : (x.operand p).payload = p := by cases x <;> rfl

/-- An operand takes one Word, whole, and its mode digit (spec/30_encoding.md R84, R88). -/
theorem decodeOperand_ok_iff {w : Int} {n : Nat} {ps rest : List Int} {o : Operand} :
    decodeOperand w n ps = .ok (o, rest) ↔ ps = o.payload :: rest ∧ modeDigit w n = o.mode := by
  unfold decodeOperand
  constructor
  · intro h
    split at h
    · exact absurd h (by simp)
    · exact absurd h (by simp)
    · next m p rest' hm =>
      simp only [Except.ok.injEq, Prod.mk.injEq] at h
      obtain ⟨rfl, rfl⟩ := h
      exact ⟨by rw [Mode.operand_payload], modeOfDigit_eq_some_iff.mp hm⟩
  · rintro ⟨rfl, hm⟩
    cases o <;> simp only [Operand.mode] at hm <;> rw [hm] <;> rfl

/-- The mode digit is examined before the parameter word (spec/40_step_and_operands.md R115). -/
theorem decodeOperand_error_iff {w : Int} {n : Nat} {ps : List Int} {e : DecodeError} :
    decodeOperand w n ps = .error e ↔
      (modeOfDigit (modeDigit w n) = none ∧ e = .invalidMode w n) ∨
      (modeOfDigit (modeDigit w n) ≠ none ∧ ps = [] ∧ e = .missingParameter n) := by
  unfold decodeOperand
  cases hm : modeOfDigit (modeDigit w n) with
  | none => simp [eq_comm]
  | some x => cases ps <;> simp [eq_comm]

/-- What a decoded instruction says about the Words it came from: an instruction word with its opcode and its operands' modes,
then its operands' parameter words, then the Words left over (spec/30_encoding.md R80 to R84). -/
theorem decode_ok_words {ws rest : List Int} {i : Instr} (h : decode ws = .ok (i, rest)) :
    ∃ w, ws = w :: (i.operands.map Operand.payload ++ rest) ∧ opcodeDigits w = i.opcode.code ∧
      ∀ n (hn : n < i.operands.length), modeDigit w (n + 1) = (i.operands[n]).mode := by
  unfold decode at h
  split at h
  · exact absurd h (by simp)
  · next w ps =>
    refine ⟨w, ?_⟩
    split at h
    · exact absurd h (by simp)
    · next op hop =>
      have hcode := Opcode.ofCode_eq_some_iff.mp hop
      cases op
      case halt =>
        simp only [decodeRow, Except.ok.injEq, Prod.mk.injEq] at h
        obtain ⟨rfl, rfl⟩ := h
        exact ⟨rfl, hcode, fun n hn => absurd hn (by simp [Instr.operands])⟩
      case readInput | saveOutput | adjustRelativeBase =>
        simp only [decodeRow, decodeF1, Machine.bind_eq_ok_iff, Prod.exists, decodeOperand_ok_iff, Machine.pure_eq_ok,
          Except.ok.injEq, Prod.mk.injEq] at h
        obtain ⟨a, ps1, ⟨rfl, ha⟩, rfl, rfl⟩ := h
        refine ⟨rfl, hcode, fun n hn => ?_⟩
        match n, hn with
        | 0, _ => exact ha
      case jumpIfTrue | jumpIfFalse =>
        simp only [decodeRow, decodeF2, Machine.bind_eq_ok_iff, Prod.exists, decodeOperand_ok_iff, Machine.pure_eq_ok,
          Except.ok.injEq, Prod.mk.injEq] at h
        obtain ⟨a, ps1, ⟨rfl, ha⟩, b, ps2, ⟨rfl, hb⟩, rfl, rfl⟩ := h
        refine ⟨rfl, hcode, fun n hn => ?_⟩
        match n, hn with
        | 0, _ => exact ha
        | 1, _ => exact hb
      case add | multiply | lessThan | equals =>
        simp only [decodeRow, decodeF3, Machine.bind_eq_ok_iff, Prod.exists, decodeOperand_ok_iff, Machine.pure_eq_ok,
          Except.ok.injEq, Prod.mk.injEq] at h
        obtain ⟨a, ps1, ⟨rfl, ha⟩, b, ps2, ⟨rfl, hb⟩, d, ps3, ⟨rfl, hd⟩, rfl, rfl⟩ := h
        refine ⟨rfl, hcode, fun n hn => ?_⟩
        match n, hn with
        | 0, _ => exact ha
        | 1, _ => exact hb
        | 2, _ => exact hd

/-- The converse: an instruction word with the opcode and the modes of i, then i's parameter words, decodes to i whatever follows
(spec/30_encoding.md R80 to R84, R93). -/
theorem decode_of_words {w : Int} {i : Instr} {rest : List Int} (hop : opcodeDigits w = i.opcode.code)
    (hm : ∀ n (hn : n < i.operands.length), modeDigit w (n + 1) = (i.operands[n]).mode) :
    decode (w :: (i.operands.map Operand.payload ++ rest)) = .ok (i, rest) := by
  simp only [decode, Opcode.ofCode_eq_some_iff.mpr hop]
  cases i
  case halt => rfl
  case readInput a | saveOutput a | adjustRelativeBase a =>
    have h1 : modeDigit w 1 = a.mode := hm 0 (by simp [Instr.operands])
    simp only [Instr.opcode, decodeRow, decodeF1, Instr.operands, List.map_cons, List.map_nil, List.cons_append, List.nil_append]
    rw [decodeOperand_ok_iff.mpr ⟨rfl, h1⟩]
    rfl
  case jumpIfTrue a b | jumpIfFalse a b =>
    have h1 : modeDigit w 1 = a.mode := hm 0 (by simp [Instr.operands])
    have h2 : modeDigit w 2 = b.mode := hm 1 (by simp [Instr.operands])
    simp only [Instr.opcode, decodeRow, decodeF2, Instr.operands, List.map_cons, List.map_nil, List.cons_append, List.nil_append]
    rw [decodeOperand_ok_iff.mpr ⟨rfl, h1⟩, Machine.bind_ok, decodeOperand_ok_iff.mpr ⟨rfl, h2⟩]
    rfl
  case add a b d | multiply a b d | lessThan a b d | equals a b d =>
    have h1 : modeDigit w 1 = a.mode := hm 0 (by simp [Instr.operands])
    have h2 : modeDigit w 2 = b.mode := hm 1 (by simp [Instr.operands])
    have h3 : modeDigit w 3 = d.mode := hm 2 (by simp [Instr.operands])
    simp only [Instr.opcode, decodeRow, decodeF3, Instr.operands, List.map_cons, List.map_nil, List.cons_append, List.nil_append]
    rw [decodeOperand_ok_iff.mpr ⟨rfl, h1⟩, Machine.bind_ok, decodeOperand_ok_iff.mpr ⟨rfl, h2⟩, Machine.bind_ok,
      decodeOperand_ok_iff.mpr ⟨rfl, h3⟩]
    rfl

/-- Words that stand in Memory from a on are the first of those a step may fetch there. -/
theorem Machine.wordsFrom_eq_append {s : Machine.State} (ws : List Int) :
    ∀ n a : Nat, ws.length ≤ n → a + ws.length ≤ 2048 → (∀ j, j < ws.length → s.mem.read (a + j) = ws.getD j 0) →
      ∃ rest, s.wordsFrom config a n = ws ++ rest := by
  induction ws with
  | nil => intro n a _ _ _; exact ⟨_, rfl⟩
  | cons w ws ih =>
    intro n a hn ha hr
    simp only [List.length_cons] at hn ha
    obtain ⟨m, rfl⟩ : ∃ m, n = m + 1 := ⟨n - 1, by omega⟩
    have hw : s.mem.read a = w := hr 0 (by simp)
    obtain ⟨rest, hrest⟩ := ih m (a + 1) (by omega) (by omega) fun j hj => by
      rw [show a + 1 + j = a + (j + 1) by omega]
      exact hr (j + 1) (by simpa using hj)
    refine ⟨rest, ?_⟩
    rw [Machine.State.wordsFrom, if_pos (by simp only [config_cap]; omega), hrest, hw]
    rfl

/-- The Words a step may fetch are Words of Memory at rising addresses below CAP. -/
theorem Machine.wordsFrom_mem {c : Config} {s : Machine.State} (n : Nat) :
    ∀ (a : Nat) (w : Int), w ∈ s.wordsFrom c a n → ∃ b, b < c.cap ∧ w = s.mem.read b := by
  induction n with
  | zero => intro a w h; simp [Machine.State.wordsFrom] at h
  | succ n ih =>
    intro a w h
    unfold Machine.State.wordsFrom at h
    split at h
    · next hlt =>
      rcases List.mem_cons.mp h with rfl | h
      · exact ⟨a, hlt, rfl⟩
      · exact ih _ _ h
    · simp at h

/-- There are no more of them than there is room before CAP. -/
theorem Machine.wordsFrom_length {c : Config} {s : Machine.State} (n : Nat) :
    ∀ a : Nat, (s.wordsFrom c a n).length = min n (c.cap - a) := by
  induction n with
  | zero => intro a; simp [Machine.State.wordsFrom]
  | succ n ih =>
    intro a
    unfold Machine.State.wordsFrom
    split
    · rw [List.length_cons, ih]; omega
    · simp only [List.length_nil]; omega

end Sys2Proof
end

