-- ==== Sys2Proof/Laws/Exec.lean ====
section
/-! SUPPORT. One inversion lemma per execute phase: if it answers the next state t, then it completed, with these values and
this t, or it took one of these faults. And that every meaning answers a next state. -/

namespace Sys2Proof.Machine

theorem commit_next (s : State) (r : Except Fault State) : ∃ t, commit s r = .next t := by
  cases r <;> exact ⟨_, rfl⟩

/-- Every meaning answers a next state: a fault is taken, and nothing is refused (spec/60_exceptions.md R206). -/
theorem exec_next (i : Instr) (s : State) : ∃ t, exec i s = .next t := by
  cases i
  case halt => exact ⟨_, rfl⟩
  all_goals exact commit_next _ _

/-- The four-Word instructions (spec/41_arithmetic.md R140). -/
theorem storeResultAt_cases {f : Int → Int → Except Fault Int} {a b d : Operand} {s t : State}
    (h : storeResultAt config f a b d s = .next t) :
    (∃ va vb r da, SourceValue s a va ∧ SourceValue s b vb ∧ f va vb = .ok r ∧ DestinationAt s d da ∧
      t = (s.writeMem da r).advance 4) ∨
    ∃ k, t = takeFault k s ∧
      ((∃ x, AddressOutside s a x ∧ k = .outOfBounds x) ∨
       (∃ va x, SourceValue s a va ∧ AddressOutside s b x ∧ k = .outOfBounds x) ∨
       (∃ va vb, SourceValue s a va ∧ SourceValue s b vb ∧ f va vb = .error k) ∨
       ∃ va vb r, SourceValue s a va ∧ SourceValue s b vb ∧ f va vb = .ok r ∧
         ((IsLiteral d ∧ k = .invalidDestination) ∨ ∃ x, AddressOutside s d x ∧ k = .outOfBounds x)) := by
  replace h := commit_eq_next_iff.mp h
  rcases h with h | ⟨k, h, rfl⟩
  · simp only [bind_eq_ok_iff, readOperand_ok_iff, destAddress_ok_iff, pure_eq_ok, Except.ok.injEq] at h
    obtain ⟨va, ha, vb, hb, r, hr, da, hd, rfl⟩ := h
    exact .inl ⟨va, vb, r, da, ha, hb, hr, hd, rfl⟩
  · refine .inr ⟨k, rfl, ?_⟩
    simp only [bind_eq_error_iff, readOperand_ok_iff, readOperand_error_iff, destAddress_error_iff, pure_eq_ok, reduceCtorEq,
      and_false, exists_false, or_false] at h
    rcases h with h | ⟨va, ha, ⟨x, hx, hk⟩ | ⟨vb, hb, h | ⟨r, hr, h⟩⟩⟩
    · exact .inl h
    · exact .inr (.inl ⟨va, x, ha, hx, hk⟩)
    · exact .inr (.inr (.inl ⟨va, vb, ha, hb, h⟩))
    · exact .inr (.inr (.inr ⟨va, vb, r, ha, hb, hr, h⟩))

/-- The jumps (spec/43_jumps.md R160 to R163). -/
theorem jumpAt_cases {fires : Int → Bool} {o g : Operand} {s t : State} (h : jumpAt config fires o g s = .next t) :
    (∃ vt vg, SourceValue s o vt ∧ SourceValue s g vg ∧
      ((fires vt = true ∧ 0 ≤ vg ∧ t = s.setIp vg.toNat) ∨ (fires vt = false ∧ t = s.advance 3))) ∨
    ∃ x, t = takeFault (.outOfBounds x) s ∧
      (AddressOutside s o x ∨ (∃ vt, SourceValue s o vt ∧ AddressOutside s g x) ∨
       ∃ vt, SourceValue s o vt ∧ SourceValue s g x ∧ fires vt = true ∧ x < 0) := by
  replace h := commit_eq_next_iff.mp h
  rcases h with h | ⟨k, h, rfl⟩
  · simp only [bind_eq_ok_iff, readOperand_ok_iff] at h
    obtain ⟨vt, ht, vg, hg, h⟩ := h
    refine .inl ⟨vt, vg, ht, hg, ?_⟩
    cases hf : fires vt
    · simp only [hf, Bool.false_eq_true, if_false, pure_eq_ok, Except.ok.injEq] at h
      exact .inr ⟨rfl, h.symm⟩
    · simp only [hf, if_true, bind_eq_ok_iff, jumpTarget_ok_iff, pure_eq_ok, Except.ok.injEq] at h
      obtain ⟨k, ⟨h0, rfl⟩, rfl⟩ := h
      exact .inl ⟨rfl, h0, rfl⟩
  · simp only [bind_eq_error_iff, readOperand_ok_iff, readOperand_error_iff] at h
    rcases h with ⟨x, hx, rfl⟩ | ⟨vt, ht, ⟨x, hx, rfl⟩ | ⟨vg, hg, h⟩⟩
    · exact .inr ⟨x, rfl, .inl hx⟩
    · exact .inr ⟨x, rfl, .inr (.inl ⟨vt, ht, hx⟩)⟩
    · cases hf : fires vt
      · simp [hf] at h
      · simp only [hf, if_true, bind_eq_error_iff, jumpTarget_error_iff, pure_eq_ok, reduceCtorEq, and_false, exists_false,
          or_false] at h
        obtain ⟨hneg, rfl⟩ := h
        exact .inr ⟨vg, rfl, .inr (.inr ⟨vt, ht, hg, hf, hneg⟩)⟩

/-- ReadInput (spec/44_io.md R170). -/
theorem readInputAt_cases {d : Operand} {s t : State} (h : readInputAt config d s = .next t) :
    (∃ v da, s.inq = v :: s.inq.tail ∧ DestinationAt s d da ∧ t = (s.popInput.writeMem da v).advance 2) ∨
    ∃ k, t = takeFault k s ∧
      ((s.inq = [] ∧ k = .inputExhausted) ∨
       (s.inq ≠ [] ∧ ((IsLiteral d ∧ k = .invalidDestination) ∨ ∃ x, AddressOutside s d x ∧ k = .outOfBounds x))) := by
  replace h := commit_eq_next_iff.mp h
  rcases h with h | ⟨k, h, rfl⟩
  · simp only [bind_eq_ok_iff, frontInput_ok_iff, destAddress_ok_iff, pure_eq_ok, Except.ok.injEq] at h
    obtain ⟨v, hv, da, hd, rfl⟩ := h
    exact .inl ⟨v, da, hv, hd, rfl⟩
  · refine .inr ⟨k, rfl, ?_⟩
    simp only [bind_eq_error_iff, frontInput_ok_iff, frontInput_error_iff, destAddress_error_iff, pure_eq_ok, reduceCtorEq,
      and_false, exists_false, or_false] at h
    rcases h with h | ⟨v, hv, h⟩
    · exact .inl h
    · exact .inr ⟨by rw [hv]; exact List.cons_ne_nil _ _, h⟩

/-- SaveOutput (spec/44_io.md R171). -/
theorem saveOutputAt_cases {a : Operand} {s t : State} (h : saveOutputAt config a s = .next t) :
    (∃ va, SourceValue s a va ∧ t = (s.saveOutput va).advance 2) ∨
    ∃ x, AddressOutside s a x ∧ t = takeFault (.outOfBounds x) s := by
  replace h := commit_eq_next_iff.mp h
  rcases h with h | ⟨k, h, rfl⟩
  · simp only [bind_eq_ok_iff, readOperand_ok_iff, pure_eq_ok, Except.ok.injEq] at h
    obtain ⟨va, ha, rfl⟩ := h
    exact .inl ⟨va, ha, rfl⟩
  · simp only [bind_eq_error_iff, readOperand_error_iff, pure_eq_ok, reduceCtorEq, and_false, exists_false, or_false] at h
    obtain ⟨x, hx, rfl⟩ := h
    exact .inr ⟨x, hx, rfl⟩

/-- AdjustRelativeBase (spec/45_relbase_halt.md R181). -/
theorem adjustRelativeBaseAt_cases {a : Operand} {s t : State} (h : adjustRelativeBaseAt config a s = .next t) :
    (∃ va, SourceValue s a va ∧ inWordRange (s.rb + va) ∧ t = (s.setRb (s.rb + va)).advance 2) ∨
    ∃ k, t = takeFault k s ∧
      ((∃ x, AddressOutside s a x ∧ k = .outOfBounds x) ∨
       ∃ va, SourceValue s a va ∧ ¬ inWordRange (s.rb + va) ∧ k = .arithmeticOverflow) := by
  replace h := commit_eq_next_iff.mp h
  rcases h with h | ⟨k, h, rfl⟩
  · simp only [bind_eq_ok_iff, readOperand_ok_iff, checkWord_ok_iff, pure_eq_ok, Except.ok.injEq] at h
    obtain ⟨va, ha, nb, ⟨hw, rfl⟩, rfl⟩ := h
    exact .inl ⟨va, ha, hw, rfl⟩
  · refine .inr ⟨k, rfl, ?_⟩
    simp only [bind_eq_error_iff, readOperand_ok_iff, readOperand_error_iff, checkWord_error_iff, pure_eq_ok, reduceCtorEq,
      and_false, exists_false, or_false] at h
    rcases h with h | ⟨va, ha, hw⟩
    · exact .inl h
    · exact .inr ⟨va, ha, hw⟩

end Sys2Proof.Machine
end

