-- ==== Sys2Proof/Laws/Memory.lean ====
section
/-! SUPPORT. The laws of Memory: what a read gives after a write, and that every operation keeps the canonical form. None of
the read laws needs the canonical form. -/

namespace Sys2Proof.Machine

theorem Memory.read_nil (a : Nat) : Memory.read [] a = 0 := rfl

theorem Memory.read_remove_self (m : Memory) (a : Nat) : (m.remove a).read a = 0 := by
  induction m with
  | nil => rfl
  | cons cell m ih =>
    obtain ⟨k, v⟩ := cell
    by_cases h : k = a
    · simpa [Memory.remove, h] using ih
    · simpa [Memory.remove, Memory.read, h] using ih

theorem Memory.read_remove_of_ne (m : Memory) {a b : Nat} (h : b ≠ a) : (m.remove a).read b = m.read b := by
  induction m with
  | nil => rfl
  | cons cell m ih =>
    obtain ⟨k, v⟩ := cell
    have ih' : Memory.read (List.filter (fun cell => cell.1 != a) m) b = Memory.read m b := ih
    by_cases hk : k = a
    · subst hk
      simp [Memory.remove, Memory.read, Ne.symm h, ih']
    · by_cases hb : k = b <;> simp [Memory.remove, Memory.read, hk, hb, ih', h]

theorem Memory.not_mem_remove (m : Memory) (a : Nat) : ∀ cell ∈ m.remove a, cell.1 ≠ a := by
  intro cell hc
  simpa using (List.mem_filter.mp hc).2

theorem Memory.read_list (m : Memory) (a b : Nat) (v : Int) (h : ∀ cell ∈ m, cell.1 ≠ a) :
    (m.list a v).read b = if b = a then v else m.read b := by
  induction m with
  | nil =>
    by_cases hb : b = a
    · simp [Memory.list, Memory.read, hb]
    · simp [Memory.list, Memory.read, hb, Ne.symm hb]
  | cons cell m ih =>
    obtain ⟨k, u⟩ := cell
    have hk : k ≠ a := h (k, u) (by simp)
    have ih' := ih fun cell hc => h cell (by simp [hc])
    by_cases hlt : a < k
    · by_cases hb : b = a
      · simp [Memory.list, Memory.read, hlt, hb]
      · simp [Memory.list, Memory.read, hlt, hb, Ne.symm hb]
    · by_cases hkb : k = b
      · subst hkb
        simp [Memory.list, Memory.read, hlt, hk]
      · simp [Memory.list, Memory.read, hlt, hkb, ih']

/-- A read after a write: the new Word at the written address, the old Word everywhere else (spec/20_memory.md R54). -/
theorem Memory.read_write (m : Memory) (a b : Nat) (v : Int) : (m.write a v).read b = if b = a then v else m.read b := by
  unfold Memory.write
  split
  · next hv =>
    by_cases hb : b = a
    · simp [hb, hv, Memory.read_remove_self, Memory.zeroFill]
    · simp [hb, Memory.read_remove_of_ne m hb]
  · rw [Memory.read_list _ _ _ _ (m.not_mem_remove a)]
    by_cases hb : b = a
    · simp [hb]
    · simp [hb, Memory.read_remove_of_ne m hb]

theorem Memory.read_write_self (m : Memory) (a : Nat) (v : Int) : (m.write a v).read a = v := by
  simp [Memory.read_write]

theorem Memory.read_write_of_ne (m : Memory) {a b : Nat} (v : Int) (h : b ≠ a) : (m.write a v).read b = m.read b := by
  simp [Memory.read_write, h]

/-- Reading after a load: the loaded Word inside the loaded range, the old Word outside it (spec/70_reset_and_hazards.md
R231). -/
theorem Memory.read_load (ws : List Int) :
    ∀ (m : Memory) (a b : Nat), (m.load a ws).read b = if a ≤ b ∧ b < a + ws.length then ws.getD (b - a) 0 else m.read b := by
  induction ws with
  | nil => intro m a b; simp only [Memory.load, List.length_nil]; split <;> [omega; rfl]
  | cons w ws ih =>
    intro m a b
    rw [Memory.load, ih, Memory.read_write]
    by_cases hlo : a + 1 ≤ b ∧ b < a + 1 + ws.length
    · have hb : b - a = (b - (a + 1)) + 1 := by omega
      rw [if_pos hlo, if_pos (by simp only [List.length_cons]; omega), hb, List.getD_cons_succ]
    · rw [if_neg hlo]
      by_cases hb : b = a
      · subst hb; simp
      · rw [if_neg hb, if_neg (by simp only [List.length_cons]; omega)]

/-! ### The canonical form -/

theorem Memory.wf_cons {k : Nat} {v : Int} {m : Memory} :
    Memory.wf ((k, v) :: m) = true ↔ v ≠ 0 ∧ (∀ cell ∈ m, k < cell.1) ∧ Memory.wf m = true := by
  simp [Memory.wf, Memory.zeroFill, and_assoc]

theorem Memory.mem_remove {m : Memory} {a : Nat} {cell : Nat × Int} : cell ∈ m.remove a ↔ cell ∈ m ∧ cell.1 ≠ a := by
  simp [Memory.remove]

theorem Memory.mem_list {m : Memory} {a : Nat} {v : Int} {cell : Nat × Int} :
    cell ∈ m.list a v ↔ cell = (a, v) ∨ cell ∈ m := by
  induction m with
  | nil => simp [Memory.list]
  | cons c m ih =>
    obtain ⟨k, u⟩ := c
    by_cases h : a < k
    · simp [Memory.list, h]
    · simp only [Memory.list, h, if_false, List.mem_cons, ih]
      tauto

theorem Memory.wf_remove {m : Memory} (h : m.wf = true) (a : Nat) : (m.remove a).wf = true := by
  induction m with
  | nil => rfl
  | cons cell m ih =>
    obtain ⟨k, v⟩ := cell
    obtain ⟨hv, hk, hm⟩ := Memory.wf_cons.mp h
    have ih' := ih hm
    by_cases hka : k = a
    · simpa [Memory.remove, hka] using ih'
    · have : Memory.remove ((k, v) :: m) a = (k, v) :: Memory.remove m a := by simp [Memory.remove, hka]
      rw [this, Memory.wf_cons]
      exact ⟨hv, fun cell hc => hk cell (Memory.mem_remove.mp hc).1, ih'⟩

theorem Memory.wf_list {m : Memory} (h : m.wf = true) {a : Nat} {v : Int} (hv : v ≠ 0) (ha : ∀ cell ∈ m, cell.1 ≠ a) :
    (m.list a v).wf = true := by
  induction m with
  | nil => simp [Memory.list, Memory.wf, Memory.zeroFill, hv]
  | cons cell m ih =>
    obtain ⟨k, u⟩ := cell
    obtain ⟨hu, hk, hm⟩ := Memory.wf_cons.mp h
    have hka : k ≠ a := ha (k, u) (by simp)
    by_cases hlt : a < k
    · simp only [Memory.list, hlt, if_true]
      refine Memory.wf_cons.mpr ⟨hv, fun cell hc => ?_, h⟩
      rcases List.mem_cons.mp hc with rfl | hc
      · exact hlt
      · exact hlt.trans (hk cell hc)
    · simp only [Memory.list, hlt, if_false]
      refine Memory.wf_cons.mpr ⟨hu, fun cell hc => ?_, ih hm fun cell hc => ha cell (by simp [hc])⟩
      rcases Memory.mem_list.mp hc with rfl | hc
      · simp only; omega
      · exact hk cell hc

/-- A write keeps the canonical form. -/
theorem Memory.wf_write {m : Memory} (h : m.wf = true) (a : Nat) (v : Int) : (m.write a v).wf = true := by
  unfold Memory.write
  split
  · exact Memory.wf_remove h a
  · next hv => exact Memory.wf_list (Memory.wf_remove h a) hv (m.not_mem_remove a)

/-- A load keeps the canonical form. -/
theorem Memory.wf_load (ws : List Int) : ∀ {m : Memory}, m.wf = true → ∀ a, (m.load a ws).wf = true := by
  induction ws with
  | nil => intro m h a; exact h
  | cons w ws ih => intro m h a; exact ih (Memory.wf_write h a w) (a + 1)

/-- Memory after reset is in the canonical form. -/
theorem State.reset_mem_wf : State.reset.mem.wf = true := rfl

/-- A write lists no address that was not listed, but the one written. -/
theorem Memory.mem_write {m : Memory} {a : Nat} {v : Int} {cell : Nat × Int} (h : cell ∈ m.write a v) :
    cell.1 = a ∨ cell ∈ m := by
  unfold Memory.write at h
  split at h
  · exact .inr (Memory.mem_remove.mp h).1
  · rcases Memory.mem_list.mp h with rfl | h
    · exact .inl rfl
    · exact .inr (Memory.mem_remove.mp h).1

end Sys2Proof.Machine
end

