-- ==== Sys2Proof/Laws/PerInstr.lean ====
section
/-! SUPPORT. Facts about every instruction as syntax, one lemma per constructor. -/

namespace Sys2Proof.Laws.EncodedSize

/-- The canonical Words of an instruction are as many as its encoded size says (spec/30_encoding.md R80, R86). -/
def Statement (i : Instr) : Prop := (encode i).length = i.opcode.size

theorem add (a b d : Operand) : Statement (.add a b d) := rfl
theorem multiply (a b d : Operand) : Statement (.multiply a b d) := rfl
theorem readInput (d : Operand) : Statement (.readInput d) := rfl
theorem saveOutput (a : Operand) : Statement (.saveOutput a) := rfl
theorem jumpIfTrue (t g : Operand) : Statement (.jumpIfTrue t g) := rfl
theorem jumpIfFalse (t g : Operand) : Statement (.jumpIfFalse t g) := rfl
theorem lessThan (a b d : Operand) : Statement (.lessThan a b d) := rfl
theorem equals (a b d : Operand) : Statement (.equals a b d) := rfl
theorem adjustRelativeBase (a : Operand) : Statement (.adjustRelativeBase a) := rfl
theorem halt : Statement .halt := rfl

end Sys2Proof.Laws.EncodedSize
end

