-- ==== Sys2Proof/Laws/Step.lean ====
section
/-! SUPPORT. What one instruction and one step can do, said once: an instruction has one of seven effects; a step is refused in
a terminal machine, or is the end test, a decode fault, or exec of the decoded instruction (spec/40_step_and_operands.md R110 to
R116, spec/60_exceptions.md R204). -/

namespace Sys2Proof.Machine

/-- Every way in which the execute phase of i can leave the state s (spec/40_step_and_operands.md R116). -/
inductive Effect (i : Instr) (s : State) : State → Prop
  | store (d : Operand) (k : Nat) (r : Int) (hi : i.operands.length = 3) (hid : i.destination = some d)
      (hd : DestinationAt s d k) : Effect i s ((s.writeMem k r).advance 4)
  | input (d : Operand) (v : Int) (k : Nat) (hi : i = .readInput d) (hv : s.inq = v :: s.inq.tail) (hd : DestinationAt s d k) :
      Effect i s ((s.popInput.writeMem k v).advance 2)
  | output (a : Operand) (v : Int) (hi : i = .saveOutput a) (hv : SourceValue s a v) : Effect i s ((s.saveOutput v).advance 2)
  | jump (k : Nat) (hi : i.operands.length = 2) : Effect i s (s.setIp k)
  | adjust (a : Operand) (v : Int) (hi : i = .adjustRelativeBase a) (hv : SourceValue s a v) (hw : inWordRange (s.rb + v)) :
      Effect i s ((s.setRb (s.rb + v)).advance 2)
  | halt (hi : i = .halt) : Effect i s (s.halt .explicit)
  | fault (k : Fault) : Effect i s (takeFault k s)

theorem storeResultAt_effect {i : Instr} {f : Int → Int → Except Fault Int} {a b d : Operand} {s t : State}
    (hi : i.operands.length = 3) (hid : i.destination = some d) (h : storeResultAt config f a b d s = .next t) :
    Effect i s t := by
  rcases storeResultAt_cases h with ⟨va, vb, r, da, ha, hb, hr, hd, rfl⟩ | ⟨k, rfl, -⟩
  · exact .store d _ _ hi hid hd
  · exact .fault k

theorem jumpAt_effect {i : Instr} {fires : Int → Bool} {o g : Operand} {s t : State}
    (hi : i.operands.length = 2) (h : jumpAt config fires o g s = .next t) : Effect i s t := by
  rcases jumpAt_cases h with ⟨vt, vg, ht, hg, ⟨-, -, rfl⟩ | ⟨-, rfl⟩⟩ | ⟨x, rfl, -⟩
  · exact .jump _ hi
  · exact .jump _ hi
  · exact .fault _

/-- An instruction that answers t had one of the seven effects. -/
theorem exec_effect {i : Instr} {s t : State} (h : exec i s = .next t) : Effect i s t := by
  cases i
  case add a b d => exact storeResultAt_effect rfl rfl h
  case multiply a b d => exact storeResultAt_effect rfl rfl h
  case lessThan a b d => exact storeResultAt_effect rfl rfl h
  case equals a b d => exact storeResultAt_effect rfl rfl h
  case jumpIfTrue o g => exact jumpAt_effect rfl h
  case jumpIfFalse o g => exact jumpAt_effect rfl h
  case readInput d =>
    rcases readInputAt_cases h with ⟨v, da, hv, hd, rfl⟩ | ⟨k, rfl, -⟩
    · exact .input d _ _ rfl hv hd
    · exact .fault _
  case saveOutput a =>
    rcases saveOutputAt_cases h with ⟨v, hv, rfl⟩ | ⟨x, -, rfl⟩
    · exact .output a _ rfl hv
    · exact .fault _
  case adjustRelativeBase a =>
    rcases adjustRelativeBaseAt_cases h with ⟨v, hv, hw, rfl⟩ | ⟨x, rfl, -⟩
    · exact .adjust a _ rfl hv hw
    · exact .fault _
  case halt =>
    obtain rfl : s.halt .explicit = t := by simpa [exec, execHalt] using h
    exact .halt rfl

theorem stepWith_running {c : Config} {execute : Instr → State → Answer} {s : State} (h : s.status = .running) :
    stepWith c execute s = runningStepAt c execute s := by
  unfold stepWith; rw [h]

theorem stepWith_terminal {c : Config} {execute : Instr → State → Answer} {s : State} (h : s.status ≠ .running) :
    stepWith c execute s = .refused .terminalMachine := by
  unfold stepWith; cases hs : s.status <;> simp_all

/-- A step that answers a next state starts in a Running state, and does one of three things. -/
theorem stepWith_cases {c : Config} {execute : Instr → State → Answer} {s t : State}
    (h : stepWith c execute s = .next t) :
    s.status = .running ∧
      ((c.cap ≤ s.ip ∧ t = s.halt .ranOffEnd) ∨
       (s.ip < c.cap ∧ ∃ e, decode (s.fetchWords c) = .error e ∧ t = takeFault (decodeFault s.ip e) s) ∨
       (s.ip < c.cap ∧ ∃ i rest, decode (s.fetchWords c) = .ok (i, rest) ∧ execute i s = .next t)) := by
  by_cases hs : s.status = .running
  · refine ⟨hs, ?_⟩
    rw [stepWith_running hs] at h
    unfold runningStepAt at h
    by_cases hip : c.cap ≤ s.ip
    · rw [if_pos hip] at h
      exact .inl ⟨hip, by simpa using h.symm⟩
    · rw [if_neg hip] at h
      have hlt : s.ip < c.cap := Nat.lt_of_not_le hip
      cases hd : decode (s.fetchWords c) with
      | error e =>
        simp only [hd, commit_error] at h
        exact .inr (.inl ⟨hlt, e, rfl, by simpa using h.symm⟩)
      | ok p =>
        obtain ⟨i, rest⟩ := p
        simp only [hd] at h
        exact .inr (.inr ⟨hlt, i, rest, rfl, h⟩)
  · rw [stepWith_terminal hs] at h
    exact absurd h (by simp)

/-- The three things a step of this hardware can do. -/
theorem step_cases {s t : State} (h : step s = .next t) :
    s.status = .running ∧
      ((2048 ≤ s.ip ∧ t = s.halt .ranOffEnd) ∨
       (s.ip < 2048 ∧ ∃ e, decode (s.fetchWords config) = .error e ∧ t = takeFault (decodeFault s.ip e) s) ∨
       (s.ip < 2048 ∧ ∃ i rest, decode (s.fetchWords config) = .ok (i, rest) ∧ exec i s = .next t)) :=
  stepWith_cases h

/-- What it is to be about to execute i. -/
theorem State.current_eq_some_iff {s : State} {i : Instr} :
    s.current = some i ↔ s.status = .running ∧ s.ip < 2048 ∧ ∃ rest, decode (s.fetchWords config) = .ok (i, rest) := by
  constructor
  · intro h
    unfold State.current at h
    split at h
    · next hs hd =>
      split at h
      · next hip =>
        obtain rfl : _ = i := by simpa using h
        exact ⟨hs, hip, _, hd⟩
      · exact absurd h (by simp)
    · exact absurd h (by simp)
  · rintro ⟨hs, hip, rest, hd⟩
    simp [State.current, hs, hd, hip]

/-- A step that is about to execute i is exec of i. -/
theorem step_of_current {s : State} {i : Instr} (h : s.current = some i) : step s = exec i s := by
  obtain ⟨hs, hip, rest, hd⟩ := State.current_eq_some_iff.mp h
  have hcap : ¬ config.cap ≤ s.ip := by simp only [config_cap]; omega
  rw [step, stepWith_running hs, runningStepAt, if_neg hcap, hd]

/-- Every way in which a step can leave a Running state s. -/
inductive StepEffect (s : State) : State → Prop
  | offEnd (hip : 2048 ≤ s.ip) (hc : s.current = none) : StepEffect s (s.halt .ranOffEnd)
  | decodeFault (k : Fault) (hip : s.ip < 2048) (hc : s.current = none) : StepEffect s (takeFault k s)
  | execute (i : Instr) (t : State) (hip : s.ip < 2048) (hc : s.current = some i) (he : exec i s = .next t) : StepEffect s t

/-- A step that answers t started in a Running state and had one of the three effects. -/
theorem step_effect {s t : State} (h : step s = .next t) : s.status = .running ∧ StepEffect s t := by
  obtain ⟨hs, ⟨hip, rfl⟩ | ⟨hip, e, hd, rfl⟩ | ⟨hip, i, rest, hd, he⟩⟩ := step_cases h
  · refine ⟨hs, .offEnd hip (Option.eq_none_iff_forall_ne_some.mpr fun i hc => ?_)⟩
    obtain ⟨-, hlt, -⟩ := State.current_eq_some_iff.mp hc
    omega
  · exact ⟨hs, .decodeFault _ hip (by simp [State.current, hs, hd])⟩
  · exact ⟨hs, .execute i t hip (State.current_eq_some_iff.mpr ⟨hs, hip, rest, hd⟩) he⟩

/-- The meanings at `config` are this hardware's. -/
theorem execAt_config (i : Instr) (s : State) : execAt config i s = exec i s := by
  cases i <;> rfl

/-- The step at `config` is this hardware's. -/
theorem stepAt_config (s : State) : stepAt config s = step s := by
  have h : execAt config = exec := funext fun i => funext fun s => execAt_config i s
  rw [stepAt, step, h]

end Sys2Proof.Machine
end

