-- ==== Sys2Proof/Tests/Slice0.lean ====
section
/-! SUPPORT. The model's own tests. Expected results are those of spec/95_test_vectors.md (the identifier stands in each
docstring: E, M, AD, MU, C, J, I, O, A, H, B) or of the spec's tables. Then one witness, or one for each clause, for every
obligation that has hypotheses: concrete values at the boundaries that meet them together. -/

namespace Sys2Proof.Tests.Slice0

open Sys2Proof Sys2Proof.Machine

/-! ### Helpers -/

/-- The state an answer gives, if it is a next state. -/
def nextState : Answer → Option State
  | .next t => some t
  | .fault _ => none
  | .refused _ => none

/-- The state after the first step of a program, as constructed. -/
def first (prog inputs : List Int) : Option State :=
  match construct config prog inputs with
  | .ok s => nextState (step s)
  | .error _ => none

/-- A Running machine with given Memory, IP, RB and INQ. -/
def small (mem : Memory) (ip : Nat) (rb : Int) (inq : List Int) : State := { State.reset with mem := mem, ip := ip, rb := rb, inq := inq }

/-! ### The parameters: the constraint column of spec/00_scope.md R5 holds of this hardware -/

theorem test_config_ok : config.ok := by decide

/-! ### WellFormed: an ill-formed term for each operand position, which the check refuses, and the extremes, which it takes -/

theorem test_wf_refuses_position_above : ¬ (Instr.saveOutput (.position 9223372036854775808)).wf := by decide
theorem test_wf_refuses_literal_below : ¬ (Instr.adjustRelativeBase (.literal (-9223372036854775809))).wf := by decide
theorem test_wf_refuses_relative_above : ¬ (Instr.readInput (.relative 9223372036854775808)).wf := by decide
theorem test_wf_refuses_first_operand : ¬ (Instr.add (.position 9223372036854775808) (.literal 0) (.position 0)).wf := by decide
theorem test_wf_refuses_second_operand : ¬ (Instr.jumpIfTrue (.literal 1) (.literal (-9223372036854775809))).wf := by decide
theorem test_wf_refuses_third_operand : ¬ (Instr.equals (.literal 1) (.literal 1) (.relative 9223372036854775808)).wf := by decide
theorem test_wf_takes_extremes :
    (Instr.lessThan (.literal (-9223372036854775808)) (.position 9223372036854775807) (.literal 0)).wf := by decide

/-! ### Decoding: words written out from the tables of spec/30_encoding.md and section 2 of spec/95_test_vectors.md -/

/-- E2, E4, E20, E22. -/
theorem test_decode_add :
    decode [1101, 1, 2, 3] = .ok (.add (.literal 1) (.literal 2) (.position 3), []) ∧
    decode [2201, 0, 1, 2] = .ok (.add (.relative 0) (.relative 1) (.position 2), []) ∧
    decode [100001, 4, 5, 6, 7] = .ok (.add (.position 4) (.position 5) (.position 6), [7]) ∧
    decode [11101, 1, 2, 3] = .ok (.add (.literal 1) (.literal 2) (.literal 3), []) := by decide

/-- E1, E3. -/
theorem test_decode_multiply :
    decode [1002, 4, 3, 5] = .ok (.multiply (.position 4) (.literal 3) (.position 5), []) ∧
    decode [21202, 7, 8, 9] = .ok (.multiply (.relative 7) (.literal 8) (.relative 9), []) := by decide

/-- E7 to E9. -/
theorem test_decode_read_input :
    decode [3, 9] = .ok (.readInput (.position 9), []) ∧ decode [203, 9] = .ok (.readInput (.relative 9), []) ∧
    decode [103, 9] = .ok (.readInput (.literal 9), []) := by decide

/-- E10, E11, E21. -/
theorem test_decode_save_output :
    decode [104, -1] = .ok (.saveOutput (.literal (-1)), []) ∧ decode [204, -1] = .ok (.saveOutput (.relative (-1)), []) ∧
    decode [100004, 6] = .ok (.saveOutput (.position 6), []) := by decide

/-- E12. -/
theorem test_decode_jump_if_true : decode [1005, 14, 2] = .ok (.jumpIfTrue (.position 14) (.literal 2), []) := by decide

/-- E13. -/
theorem test_decode_jump_if_false : decode [1106, 0, 4] = .ok (.jumpIfFalse (.literal 0) (.literal 4), []) := by decide

/-- E5. -/
theorem test_decode_less_than :
    decode [21107, 1, 2, 3] = .ok (.lessThan (.literal 1) (.literal 2) (.relative 3), []) := by decide

/-- E6. -/
theorem test_decode_equals : decode [1008, 1, 2, 3] = .ok (.equals (.position 1) (.literal 2) (.position 3), []) := by decide

/-- E14, E15. -/
theorem test_decode_adjust_relative_base :
    decode [109, -5] = .ok (.adjustRelativeBase (.literal (-5)), []) ∧
    decode [209, 3] = .ok (.adjustRelativeBase (.relative 3), []) := by decide

/-- E16 to E19, E37. -/
theorem test_decode_halt :
    decode [99] = .ok (.halt, []) ∧ decode [199] = .ok (.halt, []) ∧ decode [10099] = .ok (.halt, []) ∧
    decode [1100099] = .ok (.halt, []) ∧ decode [3099] = .ok (.halt, []) := by decide

/-- E23 to E31. -/
theorem test_decode_unknown_opcode :
    [0, 100, 10, 98, 1031, -1, -99, -101, -100].map (fun w => decode [w, 0, 0, 0]) =
      [0, 0, 10, 98, 31, -1, -99, -1, 0].map (fun c => .error (.unknownOpcode c)) := by decide

/-- E32 to E36. -/
theorem test_decode_invalid_mode :
    decode [301, 0, 0, 0] = .error (.invalidMode 301 1) ∧ decode [1301, 0, 0, 0] = .error (.invalidMode 1301 1) ∧
    decode [10301, 0, 0, 0] = .error (.invalidMode 10301 1) ∧ decode [30001, 0, 0, 0] = .error (.invalidMode 30001 3) ∧
    decode [904, 0] = .error (.invalidMode 904 1) := by decide

/-- E41 to E43: what is tested first at the end of Memory. -/
theorem test_decode_order_at_the_end :
    decode [1] = .error (.missingParameter 1) ∧ decode [301] = .error (.invalidMode 301 1) ∧
    decode [3001] = .error (.missingParameter 1) := by decide

/-- The canonical words of spec/30_encoding.md R96, from the listing P3 of spec/95_test_vectors.md. -/
theorem test_encode :
    encode (.add (.position 100) (.literal 1) (.position 100)) = [1001, 100, 1, 100] ∧
    encode (.saveOutput (.relative (-1))) = [204, -1] ∧ encode (.jumpIfFalse (.position 101) (.literal 0)) = [1006, 101, 0] := by
  decide

/-- A host table word: the low 64 bits are the instruction word (log entry 7). -/
theorem test_table_word :
    decodeTableWord 64 99 = some .halt ∧
    decodeTableWord 128 (104 + 2 ^ 64 * (2 ^ 64 - 3)) = some (.saveOutput (.literal (-3))) ∧ decodeTableWord 64 98 = none := by
  decide

/-! ### One step of each instruction -/

/-- AD3: both sources and the destination are one address. -/
theorem test_add_same_address : (first [1, 5, 5, 5, 99, 21] []).map (fun t => (t.mem.read 5, t.ip)) = some (42, 4) := by decide

/-- AD9: the overflow comes before the Literal destination, and the whole state but STATUS and FAULT stays. -/
theorem test_add_overflow :
    (first [11101, 9223372036854775807, 1, 0, 99] []).map (fun t => (t.fault, t.ip, t.mem.read 0)) =
      some (some .arithmeticOverflow, 0, 11101) := by decide

/-- MU6: the product is exactly WMIN. -/
theorem test_multiply_wmin :
    (first [1102, 4294967296, -2147483648, 0, 99] []).map (fun t => t.mem.read 0) = some (-9223372036854775808) := by decide

/-- MU4: the product of WMIN and -1 is no Word. -/
theorem test_multiply_overflow :
    (first [1102, -9223372036854775808, -1, 0, 99] []).map (fun t => t.fault) = some (some .arithmeticOverflow) := by decide

/-- I6: ReadInput overwrites its own parameter word. -/
theorem test_read_input_own_parameter :
    (first [3, 1, 99] [5]).map (fun t => (t.mem.read 1, t.inq, t.ip)) = some (5, [], 2) := by decide

/-- I5: a Literal destination keeps the queue. -/
theorem test_read_input_literal :
    (first [103, 5, 99] [7]).map (fun t => (t.fault, t.inq, t.ip)) = some (some .invalidDestination, [7], 0) := by decide

/-- M3: address CAP - 1 is valid and zero filled. -/
theorem test_save_output_last_word : (first [4, 2047, 99] []).map (fun t => (t.outlog, t.out, t.ip)) = some ([0], some 0, 2) := by
  decide

/-- M4: address CAP is not. -/
theorem test_save_output_out_of_bounds :
    (first [4, 2048, 99] []).map (fun t => (t.outlog, t.fault)) = some ([], some (.outOfBounds 2048)) := by decide

/-- J12: a target of CAP or more is taken. -/
theorem test_jump_if_true_far : (first [1005, 0, 50000, 99] []).map (fun t => (t.ip, t.status)) = some (50000, .running) := by decide

/-- J6: a negative target faults. -/
theorem test_jump_if_true_negative : (first [1105, 1, -1] []).map (fun t => (t.ip, t.fault)) = some (0, some (.outOfBounds (-1))) := by
  decide

/-- J3: a non-zero test does not fire. -/
theorem test_jump_if_false_not_fired : (first [1106, 7, 4, 99] []).map (fun t => t.ip) = some 3 := by decide

/-- J15: the target is read although the jump does not fire. -/
theorem test_jump_if_false_reads_target : (first [6, 0, 50000, 99] []).map (fun t => t.fault) = some (some (.outOfBounds 50000)) := by
  decide

/-- C4: the comparison is signed and never overflows. -/
theorem test_less_than_extremes :
    (first [1107, -9223372036854775808, 9223372036854775807, 5, 99] []).map (fun t => t.mem.read 5) = some 1 := by decide

/-- C3 with a 7 at the destination: it is strict. -/
theorem test_less_than_strict : (first [1107, 3, 3, 5, 99, 7] []).map (fun t => (t.mem.read 5, t.ip)) = some (0, 4) := by decide

/-- C10: the result overwrites the instruction word. -/
theorem test_equals_itself : (first [8, 0, 0, 0, 99] []).map (fun t => (t.mem.read 0, t.ip)) = some (1, 4) := by decide

/-- C6 with a 7 at the destination. -/
theorem test_equals_sign : (first [1108, -3, 3, 5, 99, 7] []).map (fun t => t.mem.read 5) = some 0 := by decide

/-- A6, its second step: the operand is read at the old RB. -/
theorem test_adjust_relative_base_reads_old_base :
    (nextState (step (small [(2, 209), (5, 12)] 2 5 []))).map (fun t => (t.rb, t.ip)) = some (17, 4) := by decide

/-- A8, its second step: the sum is no Word. -/
theorem test_adjust_relative_base_overflow :
    (nextState (step (small [(2, 109), (3, 1)] 2 9223372036854775807 []))).map (fun t => (t.fault, t.rb, t.ip)) =
      some (some .arithmeticOverflow, 9223372036854775807, 2) := by decide

/-- H1. -/
theorem test_halt : (first [99] []).map (fun t => (t.status, t.haltReason, t.ip)) = some (.halted, some .explicit, 0) := by decide

/-- H2: a higher digit is ignored. -/
theorem test_halt_higher_digit : (first [1199, 5] []).map (fun t => (t.status, t.haltReason)) = some (.halted, some .explicit) := by
  decide

/-- A10: an effective address that is no Word is reported exactly. -/
theorem test_relative_address_is_exact :
    (nextState (step (small [(2, 204), (3, 1)] 2 9223372036854775807 []))).map (fun t => t.fault) =
      some (some (.outOfBounds 9223372036854775808)) := by decide

/-- E40 and E41, their last step: the faults carry the address of the instruction, or of the missing parameter word. -/
theorem test_fault_payloads :
    (nextState (step (small [(2047, 98)] 2047 0 []))).map (fun t => t.fault) = some (some (.unknownOpcode 98 2047)) ∧
    (nextState (step (small [(2047, 301)] 2047 0 []))).map (fun t => t.fault) = some (some (.invalidMode 301 1 2047)) ∧
    (nextState (step (small [(2047, 1)] 2047 0 []))).map (fun t => t.fault) = some (some (.outOfBounds 2048)) := by decide

/-! ### The loader and the interface -/

/-- B2 and B8. -/
theorem test_loader_takes :
    parseLiteral config [' ', '1', ' ', ',', ' ', '0', ',', '0', ' ', ',', '0', ',', ' ', '9', '9', ' '] = .ok [1, 0, 0, 0, 99] ∧
    parseLiteral config ("-9223372036854775808".toList) = .ok [-9223372036854775808] := by decide

/-- B3 to B7. -/
theorem test_loader_refuses :
    parseLiteral config ['1', ',', 'x', ',', '0'] = .error (.parseError ['x']) ∧
    parseLiteral config ['1', ',', ',', '0'] = .error (.parseError []) ∧
    parseLiteral config ['1', ',', '0', ','] = .error (.parseError []) ∧
    parseLiteral config ['+', '1', ',', '0'] = .error (.parseError ['+', '1']) ∧
    parseLiteral config ("9223372036854775808".toList) = .error (.parseError "9223372036854775808".toList) := by decide

/-- R246: a Word is pushed before the first step and refused after it, as a value that is no Word is before it. -/
theorem test_push :
    (serve (.inPush 7) ⟨small [] 0 0 [], false⟩).1.machine.inq = [7] ∧
    serve (.inPush 7) ⟨small [] 0 0 [], true⟩ = (⟨small [] 0 0 [], true⟩, .refused) ∧
    (serve (.inPush 9223372036854775808) ⟨small [] 0 0 [], false⟩).2 = .refused := by decide

/-! ### Witnesses: concrete values at the boundaries that meet the hypotheses of each obligation, one for each clause -/

/-- ConstructionLoadsAndResets: the longest program, and an address on each side of a program's end. -/
theorem witness_construction_loads :
    (List.replicate 2048 (7 : Int)).length ≤ 2048 ∧ (4 < 2048 ∧ 4 < [1, 0, 0, 0, (99 : Int)].length) ∧
    (2047 < 2048 ∧ ¬ 2047 < [1, 0, 0, 0, (99 : Int)].length) := by
  refine ⟨by rw [List.length_replicate], by decide, by decide⟩

/-- LongProgramIsRefused (B9). -/
theorem witness_long_program : 2048 < (List.replicate 2049 (7 : Int)).length := by rw [List.length_replicate]; decide

/-- ConstructionMeetsInvariants, with WMIN, WMAX and an input. -/
theorem witness_construction_invariants :
    launchOk config [-9223372036854775808, 9223372036854775807] [9223372036854775807] := by decide

/-- StepKeepsInvariants: a machine that meets the invariants and steps. -/
theorem witness_step_invariants : (small [(0, 99)] 0 0 [5]).Inv ∧ ∃ t, step (small [(0, 99)] 0 0 [5]) = .next t := by
  refine ⟨⟨by decide, by decide, fun a => ?_, by decide, by decide, by decide, by decide, by decide, by decide⟩, _, rfl⟩
  show inWordRange (if 0 = a then 99 else 0)
  split <;> decide

/-- The clause "the first source is at no address" of the four storing statements and of JumpIfTrue, JumpIfFalse, SaveOutput
and AdjustRelativeBase. -/
theorem witness_source_outside :
    AddressOutside (small [] 0 0 []) (.position (-1)) (-1) ∧ AddressOutside (small [] 0 0 []) (.position 2048) 2048 ∧
    AddressOutside (small [] 0 1 []) (.relative (-2)) (-1) ∧ AddressOutside (small [] 0 2047 []) (.relative 1) 2048 :=
  ⟨⟨rfl, by decide⟩, ⟨rfl, by decide⟩, ⟨rfl, by decide⟩, ⟨rfl, by decide⟩⟩

/-- The clause "the first source has a value, the second is at no address". -/
theorem witness_second_outside :
    SourceValue (small [(2047, 5)] 0 0 []) (.position 2047) 5 ∧ AddressOutside (small [(2047, 5)] 0 0 []) (.relative 2048) 2048 :=
  ⟨⟨by decide, by decide⟩, ⟨rfl, by decide⟩⟩

/-- The clauses "both sources have values": Literal, Position 0 and 2047, Relative with RB at both ends. -/
theorem witness_source_values :
    SourceValue (small [(0, 3)] 0 2047 []) (.literal (-9223372036854775808)) (-9223372036854775808) ∧
    SourceValue (small [(0, 3)] 0 2047 []) (.position 0) 3 ∧ SourceValue (small [(0, 3)] 0 2047 []) (.relative (-2047)) 3 ∧
    SourceValue (small [(0, 3)] 0 2047 []) (.relative 0) 0 :=
  ⟨rfl, ⟨by decide, by decide⟩, ⟨by decide, by decide⟩, ⟨by decide, by decide⟩⟩

/-- The clause "the exact result is no Word" of Add, Multiply and AdjustRelativeBase, at both ends. -/
theorem witness_overflow :
    ¬ inWordRange (9223372036854775807 + 1) ∧ ¬ inWordRange (-9223372036854775808 + -1) ∧
    ¬ inWordRange (-9223372036854775808 * -1) ∧ ¬ inWordRange (4294967296 * 2147483648) := by decide

/-- The clause "the exact result is a Word" of the same, at both ends. -/
theorem witness_no_overflow :
    inWordRange (9223372036854775807 + 0) ∧ inWordRange (-9223372036854775807 + -1) ∧
    inWordRange (4294967296 * -2147483648) := by decide

/-- The destination clauses: Literal, at no address, and at the first and the last address. -/
theorem witness_destinations :
    IsLiteral (.literal 7) ∧ AddressOutside (small [] 0 0 []) (.position (-1)) (-1) ∧
    AddressOutside (small [] 0 2047 []) (.relative 1) 2048 ∧ DestinationAt (small [] 0 0 []) (.position 0) 0 ∧
    DestinationAt (small [] 0 0 []) (.position 2047) 2047 ∧ DestinationAt (small [] 0 2047 []) (.relative (-2047)) 0 ∧
    DestinationAt (small [] 0 2047 []) (.relative 0) 2047 :=
  ⟨⟨7, rfl⟩, ⟨rfl, by decide⟩, ⟨rfl, by decide⟩, ⟨by decide, rfl⟩, ⟨by decide, rfl⟩, ⟨by decide, rfl⟩, ⟨by decide, rfl⟩⟩

/-- JumpIfTrueJumpsOnNonZero: fires with a negative target, fires with target 0, fires past CAP, does not fire. -/
theorem witness_jump_if_true :
    ((-1 : Int) ≠ 0 ∧ (-1 : Int) < 0) ∧ ((5 : Int) ≠ 0 ∧ (0 : Int) ≤ 0) ∧
    (SourceValue (small [(0, 1005)] 0 0 []) (.position 0) 1005 ∧ SourceValue (small [(0, 1005)] 0 0 []) (.literal 50000) 50000) ∧
    SourceValue (small [] 0 0 []) (.position 0) 0 :=
  ⟨by decide, by decide, ⟨⟨by decide, by decide⟩, rfl⟩, ⟨by decide, by decide⟩⟩

/-- JumpIfFalseJumpsOnZero: the same, the other way round. -/
theorem witness_jump_if_false :
    (SourceValue (small [] 0 0 []) (.position 2047) 0 ∧ SourceValue (small [] 0 0 []) (.literal (-1)) (-1)) ∧
    (SourceValue (small [] 0 0 []) (.literal 0) 0 ∧ SourceValue (small [] 0 0 []) (.literal 0) 0) ∧
    SourceValue (small [] 0 0 []) (.literal (-7)) (-7) :=
  ⟨⟨⟨by decide, by decide⟩, rfl⟩, ⟨rfl, rfl⟩, rfl⟩

/-- ReadInputMovesTheFrontToMemory: the empty queue; and a Word in it with each kind of destination. -/
theorem witness_read_input :
    (small [] 0 0 []).inq = [] ∧ (small [] 0 0 [7]).inq = 7 :: [] ∧ IsLiteral (.literal 5) ∧
    AddressOutside (small [] 0 0 [7]) (.position 2048) 2048 ∧ DestinationAt (small [] 0 0 [7]) (.position 2047) 2047 :=
  ⟨rfl, rfl, ⟨5, rfl⟩, ⟨rfl, by decide⟩, ⟨by decide, rfl⟩⟩

/-- AdjustRelativeBaseAddsToTheBase: RB at WMAX, with an operand that overflows and one that does not. -/
theorem witness_adjust_relative_base :
    ¬ inWordRange ((small [] 0 9223372036854775807 []).rb + 1) ∧ inWordRange ((small [] 0 9223372036854775807 []).rb + 0) ∧
    inWordRange ((small [] 0 0 []).rb + -9223372036854775808) := by decide

/-- HaltChangesOnlyTheStatus. -/
theorem witness_halt_word : (0 ≤ (99 : Int) ∧ (99 : Int).tmod 100 = 99) ∧ (0 ≤ (1100099 : Int) ∧ (1100099 : Int).tmod 100 = 99) := by
  decide

/-- StoringInstructionsFrame: an Add stores at 2047, and 0 is outside what it stores; a ReadInput. -/
theorem witness_storing_frame :
    (∃ t, exec (.add (.literal 1) (.literal 2) (.position 2047)) (small [] 0 0 []) = .next t) ∧
    (∀ k, destAddress config (small [] 0 0 []) (.position 2047) = .ok k → 0 ≠ k) ∧
    (∃ t, exec (.multiply (.literal 1) (.literal 2) (.position 0)) (small [] 0 0 []) = .next t) ∧
    (∃ t, exec (.lessThan (.literal 1) (.literal 2) (.position 0)) (small [] 0 0 []) = .next t) ∧
    (∃ t, exec (.equals (.literal 1) (.literal 2) (.position 0)) (small [] 0 0 []) = .next t) ∧
    (∃ t, exec (.readInput (.position 0)) (small [] 0 0 [7]) = .next t) := by
  refine ⟨⟨_, rfl⟩, fun k hk => ?_, ⟨_, rfl⟩, ⟨_, rfl⟩, ⟨_, rfl⟩, ⟨_, rfl⟩⟩
  obtain ⟨-, rfl⟩ := destAddress_ok_iff.mp hk
  decide

/-- NonStoringInstructionsFrame. -/
theorem witness_non_storing_frame :
    (∃ t, exec (.saveOutput (.position 2047)) (small [] 0 0 []) = .next t) ∧
    (∃ t, exec (.jumpIfTrue (.literal 1) (.literal 0)) (small [] 0 0 []) = .next t) ∧
    (∃ t, exec (.jumpIfFalse (.literal 1) (.literal 0)) (small [] 0 0 []) = .next t) ∧
    (∃ t, exec (.adjustRelativeBase (.literal 5)) (small [] 0 0 []) = .next t) ∧ ∃ t, exec .halt (small [] 0 0 []) = .next t :=
  ⟨⟨_, rfl⟩, ⟨_, rfl⟩, ⟨_, rfl⟩, ⟨_, rfl⟩, ⟨_, rfl⟩⟩

/-- StepRunsTheDecodedInstruction: a Halt at 2047; a whole Add at 2044 to 2047. -/
theorem witness_step_runs :
    ((small [(2047, 99)] 2047 0 []).status = .running ∧ (small [(2047, 99)] 2047 0 []).ip < 2048 ∧
      decode ((small [(2047, 99)] 2047 0 []).fetchWords config) = .ok (.halt, [])) ∧
    (2044 + (encode (.add (.literal 1) (.literal 2) (.position 3))).length ≤ 2048 ∧
      ∀ n, n < (encode (.add (.literal 1) (.literal 2) (.position 3))).length →
        (small [(2044, 1101), (2045, 1), (2046, 2), (2047, 3)] 2044 0 []).mem.read (2044 + n) =
          (encode (.add (.literal 1) (.literal 2) (.position 3))).getD n 0) := by decide

/-- EndTestHaltsPastMemory, at CAP itself. -/
theorem witness_end_test : (small [] 2048 0 []).status = .running ∧ 2048 ≤ (small [] 2048 0 []).ip := by decide

/-- RunningMachineIsNeverStuck. -/
theorem witness_never_stuck : (small [(0, 3)] 0 0 []).status = .running ∧ (small [(0, 3)] 0 0 []).inq = [] := by decide

/-- EndedMachineStaysAsItIs: a Halted and a Faulted machine, and a run that has ended after one step. -/
theorem witness_ended :
    ((small [] 0 0 []).halt .explicit).ended ∧ (takeFault .inputExhausted (small [] 0 0 [])).ended ∧
    (run 1 (small [(0, 99)] 0 0 [])).ended := by decide

/-- StatusChangesAsTheStateMachineSays and RunningStepHasOneOfFourOutcomes: a step of each kind. -/
theorem witness_status :
    (nextState (step (small [] 2048 0 []))).map (fun t => (t.status, t.haltReason)) = some (.halted, some .ranOffEnd) ∧
    (nextState (step (small [(0, 99)] 0 0 []))).map (fun t => (t.status, t.haltReason)) = some (.halted, some .explicit) ∧
    (nextState (step (small [] 0 0 []))).map (fun t => (t.status, t.fault)) = some (.faulted, some (.unknownOpcode 0 0)) ∧
    (nextState (step (small [(0, 104)] 0 0 []))).map (fun t => (t.status, t.fault)) = some (.running, none) := by decide

/-- FaultingStepChangesOnlyStatusAndFault: an instruction and the decoder. -/
theorem witness_faulting_step :
    (∃ t, step (small [(0, 3), (1, 5)] 0 0 []) = .next t ∧ t.status = .faulted) ∧
    ∃ t, step (small [(0, 301)] 0 0 []) = .next t ∧ t.status = .faulted := ⟨⟨_, rfl, rfl⟩, ⟨_, rfl, rfl⟩⟩

/-- OnlyAdjustRelativeBaseChangesTheBase. -/
theorem witness_base_changes :
    ∃ t, step (small [(0, 109), (1, 5)] 0 0 []) = .next t ∧ t.rb ≠ (small [(0, 109), (1, 5)] 0 0 []).rb :=
  ⟨_, rfl, by decide⟩

/-- InstructionWordHasTheDecimalLayout: every digit at an end of its range, and the greatest Word. -/
theorem witness_layout :
    (99 : Int) + 100 * 9 + 1000 * 0 + 10000 * 9 + 100000 * 92233720368547 = 9223372036854790999 ∧ (0 ≤ (99 : Int) ∧ (99 : Int) ≤ 99) ∧
    (0 ≤ (9 : Int) ∧ (9 : Int) ≤ 9) ∧ 1 ≤ 1 := by decide

/-- EveryInstructionWordIsClassified, its first two clauses: negative words, and words of no row. -/
theorem witness_classified_illegal :
    ((-101 : Int) = (small [(2047, -101)] 2047 0 []).mem.read 2047 ∧ (-101 : Int) < 0) ∧
    ((98 : Int) = (small [(2047, 98)] 2047 0 []).mem.read 2047 ∧ ∀ row ∈ dispatchTable, (98 : Int).tmod 100 ≠ row.1) ∧
    (∀ row ∈ dispatchTable, (0 : Int).tmod 100 ≠ row.1) := by decide

/-- Its third clause: a bad mode digit of operand 1 and of operand 3; a missing parameter word 1, 2 and 3; and all present, the
last of them at 2047. -/
theorem witness_classified_rows :
    ((301 : Int).tmod 100 = 1 ∧ 3 ≤ decimalDigit 301 2) ∧
    ((30001 : Int).tmod 100 = 1 ∧ decimalDigit 30001 2 ≤ 2 ∧ decimalDigit 30001 3 ≤ 2 ∧ 3 ≤ decimalDigit 30001 4) ∧
    (decimalDigit 1 2 ≤ 2 ∧ 2048 ≤ 2047 + 1) ∧ (2046 + 1 < 2048 ∧ 2048 ≤ 2046 + 2) ∧ (2045 + 2 < 2048 ∧ 2048 ≤ 2045 + 3) ∧
    (2044 + 3 < 2048 ∧ decimalDigit 21202 2 ≤ 2 ∧ decimalDigit 21202 3 ≤ 2 ∧ decimalDigit 21202 4 ≤ 2) := by decide

/-- DecodingTheCanonicalWordsGivesTheInstruction: a well-formed instruction with parameter words at both ends. -/
theorem witness_canonical :
    (Instr.jumpIfTrue (.relative (-9223372036854775808)) (.position 9223372036854775807)).wf := by decide

/-- DecodedWordsDifferFromCanonicalOnlyInIgnoredDigits: with an ignored digit, and without. -/
theorem witness_decoded : decode [199, 5] = .ok (.halt, [5]) ∧ decode [204, -1] = .ok (.saveOutput (.relative (-1)), []) := by
  decide

/-- InputExhaustedExactlyOnEmptyQueue, both sides: I3's second step, and a queue that is not empty. -/
theorem witness_input_exhausted :
    ((small [(2, 3), (3, 1)] 2 0 []).inq = [] ∧ (small [(2, 3), (3, 1)] 2 0 []).current = some (.readInput (.position 1))) ∧
    (nextState (step (small [(2, 3), (3, 1)] 2 0 [6]))).map (fun t => t.fault) = some none := by decide

/-- InstructionsRaiseExactlyTheirCauses, both values of the table. -/
theorem witness_causes :
    (∃ (s : State) (k : Fault), s.ip < 2048 ∧ (s.mem.read s.ip).tmod 100 = Opcode.add.code ∧ Raises (step s) k ∧
      k.cause = .invalidDestination) ∧ mayRaise .add .inputExhausted = false :=
  ⟨⟨small [(0, 11101)] 0 0 [], .invalidDestination, by decide, by decide, ⟨_, rfl, rfl, rfl⟩, rfl⟩, rfl⟩

/-- MemReadIsTotalWithinCapacity: the first and the last address, a written and an unwritten one, and both outsides. -/
theorem witness_mem_read :
    (0 ≤ (0 : Int) ∧ (0 : Int) < 2048) ∧ (0 ≤ (2047 : Int) ∧ (2047 : Int) < 2048) ∧
    (∀ cell ∈ (small [(0, 5)] 0 0 []).mem, (cell.1 : Int) ≠ 2047) ∧ (-1 : Int) < 0 ∧ (2048 : Int) ≤ 2048 := by decide

/-- CanonicalMemoriesThatReadAlikeAreEqual: two ways of writing one memory. -/
theorem witness_canonical_memories :
    Memory.wf ((Memory.write [] 3 7).write 1 5) = true ∧ Memory.wf ((Memory.write [] 1 5).write 3 7) = true ∧
    ∀ a, ((Memory.write [] 3 7).write 1 5).read a = ((Memory.write [] 1 5).write 3 7).read a := by
  refine ⟨by decide, by decide, fun a => ?_⟩
  simp only [Memory.read_write]
  split <;> split <;> first | rfl | omega

/-- AddressingModesResolveAsTheTableSays: every clause at the ends of its range. -/
theorem witness_modes :
    (0 ≤ (0 : Int) ∧ (0 : Int) < 2048) ∧ (0 ≤ (2047 : Int) ∧ (2047 : Int) < 2048) ∧ ((-1 : Int) < 0 ∧ 2048 ≤ (2048 : Int)) ∧
    (0 ≤ (small [] 0 2047 []).rb + -2047 ∧ (small [] 0 2047 []).rb + 0 < 2048) ∧
    ((small [] 0 2047 []).rb + -2048 < 0 ∧ 2048 ≤ (small [] 0 2047 []).rb + 1) := by decide

/-- StoredWordIsExecutedNext: an Add at 2043 that stores the Halt word 199 at 2047, the last address. -/
theorem witness_stored_word :
    (small [(2043, 1101), (2044, 100), (2045, 99), (2046, 2047)] 2043 0 []).current =
      some (.add (.literal 100) (.literal 99) (.position 2047)) ∧
    destAddress config (small [(2043, 1101), (2044, 100), (2045, 99), (2046, 2047)] 2043 0 []) (.position 2047) = .ok 2047 ∧
    (nextState (step (small [(2043, 1101), (2044, 100), (2045, 99), (2046, 2047)] 2043 0 []))).map
      (fun t => (t.status, t.ip, t.mem.read 2047)) = some (.running, 2047, 199) ∧
    decode [199] = .ok (.halt, []) := by decide

/-- StoredWordIsExecutedNext: a ReadInput whose destination is an operand of the next instruction, which is otherwise as it was. -/
theorem witness_stored_operand :
    (small [(0, 3), (1, 3), (2, 104), (3, 5)] 0 0 [7]).current = some (.readInput (.position 3)) ∧
    destAddress config (small [(0, 3), (1, 3), (2, 104), (3, 5)] 0 0 [7]) (.position 3) = .ok 3 ∧
    (nextState (step (small [(0, 3), (1, 3), (2, 104), (3, 5)] 0 0 [7]))).map
      (fun t => (t.status, t.ip, t.mem.read 2, t.mem.read 3)) = some (.running, 2, 104, 7) ∧
    decode [104, 7] = .ok (.saveOutput (.literal 7), []) := by decide

/-- RunningStepHasOneOfFourOutcomes, a completing step that stores: the address is that of its destination. -/
theorem witness_four_outcomes_store :
    (small [(0, 1101), (1, 2), (2, 3), (3, 2047)] 0 0 []).current = some (.add (.literal 2) (.literal 3) (.position 2047)) ∧
    destAddress config (small [(0, 1101), (1, 2), (2, 3), (3, 2047)] 0 0 []) (.position 2047) = .ok 2047 ∧
    (nextState (step (small [(0, 1101), (1, 2), (2, 3), (3, 2047)] 0 0 []))).map (fun t => (t.status, t.mem.read 2047)) =
      some (.running, 5) := by decide

/-- ExactlyOneComparisonHolds and ProductsOfThirtyTwoBitValuesNeverOverflow: their destination and the extreme factors. -/
theorem witness_products :
    DestinationAt (small [] 0 0 []) (.position 2047) 2047 ∧ -2147483648 ≤ (-2147483648 : Int) ∧ (2147483647 : Int) ≤ 2147483647 :=
  ⟨⟨by decide, rfl⟩, by decide, by decide⟩

/-- WiderWordsRunAlike: 64 and 128 bits, and a run that ends without an overflow. -/
theorem witness_wider :
    (64 ≤ (Config.mk 64 2048).wordBits ∧ (Config.mk 64 2048).cap = 2048) ∧
    (64 ≤ (Config.mk 128 2048).wordBits ∧ (Config.mk 128 2048).cap = 2048) ∧
    (run 2 (small [(0, 1101), (1, 2), (2, 3), (4, 99)] 0 0 [])).fault ≠ some .arithmeticOverflow := by decide

/-- OutputLogIsNeverRead, with a step that appends to it. -/
theorem witness_output_log : ∃ t, step (small [(0, 104), (1, 5)] 0 0 []) = .next t ∧ t.outlog = [5] := ⟨_, rfl, rfl⟩

/-- MoreInputChangesOnlyExhaustion, with a step that reads input. -/
theorem witness_more_input :
    ∃ t, step (small [(0, 3), (1, 5)] 0 0 [7]) = .next t ∧ t.fault ≠ some .inputExhausted ∧ t.inq = [] :=
  ⟨_, rfl, by decide, rfl⟩

/-- HostOnlyLetsTheMachineStep. -/
theorem witness_host :
    (serve .step ⟨small [(0, 99)] 0 0 [], true⟩).1.machine ≠ small [(0, 99)] 0 0 [] := by decide

/-- PeekReadsMemoryOfAnEndedMachine: a Running machine, and a Halted and a Faulted one. -/
theorem witness_peek :
    (small [] 0 0 []).status = .running ∧ ((small [] 0 0 []).halt .explicit).ended ∧
    (takeFault .inputExhausted (small [] 0 0 [])).ended ∧ (0 ≤ (2047 : Int) ∧ (2047 : Int) < 2048) ∧ 2048 ≤ (2048 : Int) := by decide

/-- PushingInputIsConstructingWithIt. -/
theorem witness_push :
    (∃ x, openSession [99] [5] = .ok x) ∧ (∀ v ∈ [(9223372036854775807 : Int), -9223372036854775808], inWordRange v) ∧
    (Session.mk (small [] 0 0 []) true).started = true := ⟨⟨_, rfl⟩, by decide, rfl⟩

/-- ProgramLiteralIsParsedAsWritten: each of its clauses. -/
theorem witness_literal :
    ([(-9223372036854775808 : Int), 9223372036854775807] ≠ [] ∧
      ∀ w ∈ [(-9223372036854775808 : Int), 9223372036854775807], inWordRange w) ∧
    parseLiteral config ['9', '9', ',', '-', '0'] = .ok [99, 0] ∧ (∀ ch ∈ ['1', '0'], ch.isWhitespace = false) ∧
    ¬ inWordRange 9223372036854775808 := ⟨by decide, by decide, by simp, by decide⟩

/-- PlacedTableWordIsRunNext, from reset and from an IP that leaves no room. -/
theorem witness_placed :
    decodeTableWord 64 99 = some .halt ∧ fetchPlace config (small [] 2047 0 []) = 0 ∧
    (State.reset.withFetchWord 64 99).mem = [(0, 99)] := ⟨by decide, if_neg (by decide), by decide⟩

end Sys2Proof.Tests.Slice0
end

section
/-! PROOFS. The invariants of spec/10_state.md R33: each operation on the state keeps them, so every execute phase and every step
does. Statements O5 and O3. -/

namespace Sys2Proof.Machine

/-! ### The invariants give Words -/

/-- In a state that meets the invariants every source has a Word as its value, if the operand's parameter word is one. -/
theorem State.Inv.sourceValue_inWordRange {s : State} (h : s.Inv) {o : Operand} (ho : o.wf) {v : Int}
    (hv : SourceValue s o v) : inWordRange v := by
  cases o with
  | literal p =>
    obtain rfl : v = p := hv
    exact (config_isWord_iff v).mp ho
  | position p =>
    obtain ⟨-, rfl⟩ := hv
    exact h.mem_words _
  | relative p =>
    obtain ⟨-, rfl⟩ := hv
    exact h.mem_words _

/-- The parameter words of the current instruction stand in Memory, so they are Words (spec/30_encoding.md R88). -/
theorem State.Inv.current_wf {s : State} (h : s.Inv) {i : Instr} (hc : s.current = some i) : i.wf := by
  obtain ⟨-, -, rest, hd⟩ := State.current_eq_some_iff.mp hc
  obtain ⟨w, hw, -, -⟩ := decode_ok_words hd
  intro o ho
  have hmem : o.payload ∈ s.fetchWords config := by
    rw [hw]
    exact List.mem_cons_of_mem _ (List.mem_append_left _ (List.mem_map_of_mem ho))
  obtain ⟨b, -, hb⟩ := wordsFrom_mem 4 s.ip o.payload hmem
  rw [Operand.wf, config_isWord_iff, hb]
  exact h.mem_words b

theorem lessThanWord_inWordRange (x y : Int) : inWordRange (lessThanWord x y) := by
  unfold lessThanWord truthWord; split <;> decide

theorem equalsWord_inWordRange (x y : Int) : inWordRange (equalsWord x y) := by
  unfold equalsWord truthWord; split <;> decide

/-- Halt never faults (spec/45_relbase_halt.md R183). -/
theorem exec_halt_iff {s t : State} : exec .halt s = .next t ↔ t = s.halt .explicit := by
  simp [exec, execHalt, eq_comm]

/-! ### Each operation keeps the invariants -/

section
variable {s : State} (h : s.Inv)
include h

theorem State.Inv.writeMem {a : Nat} {v : Int} (ha : a < 2048) (hv : inWordRange v) : (s.writeMem a v).Inv :=
  { h with
    mem_words := fun b => by
      rw [State.writeMem_mem, Memory.read_write]
      split
      · exact hv
      · exact h.mem_words b
    mem_inside := fun cell hc => by
      rcases Memory.mem_write hc with hca | hc
      · rw [hca]; exact ha
      · exact h.mem_inside cell hc
    mem_wf := Memory.wf_write h.mem_wf a v }

theorem State.Inv.setIp {a : Nat} (ha : (a : Int) ≤ 9223372036854775807) : (s.setIp a).Inv := { h with ip_word := ha }

/-- No instruction is longer than four Words, so IP cannot pass WMAX by advancing from inside Memory. -/
theorem State.Inv.advance (hip : s.ip < 2048) {n : Nat} (hn : n ≤ 4) : (s.advance n).Inv := h.setIp (by omega)

theorem State.Inv.setRb {v : Int} (hv : inWordRange v) : (s.setRb v).Inv := { h with rb_word := hv }

theorem State.Inv.popInput : s.popInput.Inv := { h with inq_words := fun v hv => h.inq_words v (List.mem_of_mem_tail hv) }

theorem State.Inv.saveOutput {v : Int} (hv : inWordRange v) : (s.saveOutput v).Inv :=
  { h with
    outlog_words := fun w hw => by
      rcases List.mem_append.mp hw with hw | hw
      · exact h.outlog_words w hw
      · rw [List.mem_singleton.mp hw]; exact hv }

theorem State.Inv.fault_eq_none (hs : s.status ≠ .faulted) : s.fault = none := by
  simpa using mt h.fault_iff.mp hs

theorem State.Inv.haltReason_eq_none (hs : s.status ≠ .halted) : s.haltReason = none := by
  simpa using mt h.halt_iff.mp hs

theorem State.Inv.halt (hs : s.status = .running) (r : HaltReason) : (s.halt r).Inv :=
  { h with
    fault_iff := by simp [h.fault_eq_none, hs]
    halt_iff := by simp }

theorem State.Inv.takeFault (hs : s.status = .running) (k : Fault) : (takeFault k s).Inv :=
  { h with
    fault_iff := by simp
    halt_iff := by simp [h.haltReason_eq_none, hs] }

/-! ### Every execute phase keeps the invariants -/

/-- The four-Word instructions keep the invariants, since their results are Words. -/
theorem storeResultAt_keeps_inv (hs : s.status = .running) (hip : s.ip < 2048) {f : Int → Int → Except Fault Int}
    (hf : ∀ x y r, f x y = .ok r → inWordRange r) {a b d : Operand} {t : State}
    (ht : storeResultAt config f a b d s = .next t) : t.Inv := by
  rcases storeResultAt_cases ht with ⟨va, vb, r, k, -, -, hr, hd, rfl⟩ | ⟨k, rfl, -⟩
  · exact (h.writeMem hd.lt (hf va vb r hr)).advance hip le_rfl
  · exact h.takeFault hs k

/-- The jumps keep the invariants, since a target is a Word. -/
theorem jumpAt_keeps_inv (hs : s.status = .running) (hip : s.ip < 2048) {fires : Int → Bool} {o g : Operand} (hg : g.wf)
    {t : State} (ht : jumpAt config fires o g s = .next t) : t.Inv := by
  rcases jumpAt_cases ht with ⟨-, vg, -, hv, ⟨-, h0, rfl⟩ | ⟨-, rfl⟩⟩ | ⟨x, rfl, -⟩
  · obtain ⟨-, hmax⟩ := h.sourceValue_inWordRange hg hv
    exact h.setIp (by omega)
  · exact h.advance hip (by decide)
  · exact h.takeFault hs _

theorem exec_keeps_inv (hs : s.status = .running) (hip : s.ip < 2048) {i : Instr} (hi : i.wf) {t : State}
    (ht : exec i s = .next t) : t.Inv := by
  cases i
  case add | multiply =>
    exact storeResultAt_keeps_inv h hs hip (fun x y r hr => by
      obtain ⟨hw, rfl⟩ := checkWord_ok_iff.mp hr
      exact hw) ht
  case lessThan =>
    exact storeResultAt_keeps_inv h hs hip (fun x y r hr => by
      obtain rfl := Except.ok.inj hr
      exact lessThanWord_inWordRange x y) ht
  case equals =>
    exact storeResultAt_keeps_inv h hs hip (fun x y r hr => by
      obtain rfl := Except.ok.inj hr
      exact equalsWord_inWordRange x y) ht
  case jumpIfTrue o g | jumpIfFalse o g => exact jumpAt_keeps_inv h hs hip (hi g (by simp [Instr.operands])) ht
  case readInput d =>
    rcases readInputAt_cases ht with ⟨v, k, hv, hd, rfl⟩ | ⟨k, rfl, -⟩
    · have hword : inWordRange v := h.inq_words v (by rw [hv]; exact List.mem_cons_self)
      exact (h.popInput.writeMem hd.lt hword).advance hip (by decide)
    · exact h.takeFault hs k
  case saveOutput a =>
    rcases saveOutputAt_cases ht with ⟨v, hv, rfl⟩ | ⟨x, -, rfl⟩
    · have hword : inWordRange v := h.sourceValue_inWordRange (hi a (by simp [Instr.operands])) hv
      exact (h.saveOutput hword).advance hip (by decide)
    · exact h.takeFault hs _
  case adjustRelativeBase a =>
    rcases adjustRelativeBaseAt_cases ht with ⟨v, -, hword, rfl⟩ | ⟨k, rfl, -⟩
    · exact (h.setRb hword).advance hip (by decide)
    · exact h.takeFault hs k
  case halt =>
    obtain rfl := exec_halt_iff.mp ht
    exact h.halt hs _

end

/-- Settles O5: the end test and a decode fault keep the invariants, and so does exec of the current instruction, whose parameter
words are Words because they stand in Memory. -/
theorem stepKeepsInvariants : Obligations.StepKeepsInvariants := by
  intro s t h ht
  obtain ⟨hs, heff⟩ := step_effect ht
  cases heff with
  | offEnd hip hc => exact h.halt hs _
  | decodeFault k hip hc => exact h.takeFault hs k
  | execute i t hip hc he => exact exec_keeps_inv h hs hip (h.current_wf hc) he

/-- Settles O3: reset holds no Word but 0 and has not ended, and construction of nothing loads nothing. -/
theorem resetMeetsInvariants : Obligations.ResetMeetsInvariants := by
  refine ⟨?_, rfl⟩
  exact {
    ip_word := by decide
    rb_word := by decide
    mem_words := fun a => by rw [show State.reset.mem = [] from rfl, Memory.read_nil]; decide
    mem_inside := fun cell hc => absurd hc List.not_mem_nil
    mem_wf := State.reset_mem_wf
    inq_words := fun v hv => absurd hv List.not_mem_nil
    outlog_words := fun v hv => absurd hv List.not_mem_nil
    fault_iff := by decide
    halt_iff := by decide }

end Sys2Proof.Machine
end

section
/-! PROOFS. What a step changes: the rules of a step from what it fetches, the Relative Base, the queue and the log over a run,
and how a step ends (spec/10_state.md R22, R26, R33 f). Statements O25, O26 and the transitions of O22. -/

namespace Sys2Proof.Machine

/-! ### The step from what it fetches -/

/-- The end test (spec/40_step_and_operands.md R111). -/
theorem step_of_offEnd {s : State} (hs : s.status = .running) (hip : 2048 ≤ s.ip) : step s = .next (s.halt .ranOffEnd) := by
  rw [step, stepWith_running hs, runningStepAt, config_cap, if_pos hip]

/-- A decode error is taken as its fault (spec/40_step_and_operands.md R114, R115). -/
theorem step_of_decode_error {s : State} (hs : s.status = .running) (hip : s.ip < 2048) {e : DecodeError}
    (hd : decode (s.fetchWords config) = .error e) : step s = .next (takeFault (decodeFault s.ip e) s) := by
  rw [step, stepWith_running hs, runningStepAt, config_cap, if_neg (Nat.not_le.mpr hip), hd]
  rfl

/-! ### The Relative Base -/

/-- Only an AdjustRelativeBase that completes changes RB, by its operand's value. -/
theorem Effect.rb_cases {i : Instr} {s t : State} (h : Effect i s t) :
    t.rb = s.rb ∨ ∃ a v, i = .adjustRelativeBase a ∧ SourceValue s a v ∧ t.rb = s.rb + v := by
  cases h with
  | adjust a v hi hv hw => exact .inr ⟨a, v, hi, hv, rfl⟩
  | _ => exact .inl rfl

/-- Settles O25: the end test and every fault keep RB, and among the effects of exec only that of AdjustRelativeBase does not. -/
theorem onlyAdjustRelativeBaseChangesTheBase : Obligations.OnlyAdjustRelativeBaseChangesTheBase := by
  intro s t ht hne
  obtain ⟨-, heff⟩ := step_effect ht
  cases heff with
  | offEnd hip hc => exact absurd rfl hne
  | decodeFault k hip hc => exact absurd rfl hne
  | execute i t hip hc he =>
    rcases (exec_effect he).rb_cases with hrb | ⟨a, v, rfl, hv, hrb⟩
    · exact absurd hrb hne
    · exact ⟨a, v, hc, hv, hrb⟩

/-! ### The queue and the log -/

/-- The later state has a suffix of the earlier one's INQ, and its OUTLOG continues the earlier one's (spec/10_state.md R33 f). -/
def QueueAndLogAdvance (s t : State) : Prop := t.inq <:+ s.inq ∧ s.outlog <+: t.outlog

theorem QueueAndLogAdvance.refl (s : State) : QueueAndLogAdvance s s := ⟨⟨[], rfl⟩, ⟨[], List.append_nil _⟩⟩

theorem QueueAndLogAdvance.trans {s t u : State} (h₁ : QueueAndLogAdvance s t) (h₂ : QueueAndLogAdvance t u) :
    QueueAndLogAdvance s u :=
  ⟨h₂.1.trans h₁.1, h₁.2.trans h₂.2⟩

theorem Effect.queueAndLogAdvance {i : Instr} {s t : State} (h : Effect i s t) : QueueAndLogAdvance s t := by
  cases h with
  | input d v k hi hv hd => exact ⟨List.tail_suffix s.inq, (QueueAndLogAdvance.refl s).2⟩
  | output a v hi hv => exact ⟨(QueueAndLogAdvance.refl s).1, ⟨[v], rfl⟩⟩
  | _ => exact QueueAndLogAdvance.refl s

theorem step_queueAndLogAdvance {s t : State} (h : step s = .next t) : QueueAndLogAdvance s t := by
  obtain ⟨-, heff⟩ := step_effect h
  cases heff with
  | offEnd hip hc => exact QueueAndLogAdvance.refl s
  | decodeFault k hip hc => exact QueueAndLogAdvance.refl s
  | execute i t hip hc he => exact (exec_effect he).queueAndLogAdvance

/-- A reflexive and transitive relation that every step keeps holds between the start and the end of every run. -/
theorem run_induction {R : State → State → Prop} (hrefl : ∀ s, R s s) (htrans : ∀ {s t u}, R s t → R t u → R s u)
    (hstep : ∀ {s t}, step s = .next t → R s t) (k : Nat) : ∀ s, R s (run k s) := by
  induction k with
  | zero => exact hrefl
  | succ k ih =>
    intro s
    rw [run, runWith]
    cases hs : step s with
    | next t => exact htrans (hstep hs) (ih t)
    | fault r => exact hrefl s
    | refused r => exact hrefl s

/-- Settles O26, by induction on the number of steps. -/
theorem queueShrinksAndLogGrows : Obligations.QueueShrinksAndLogGrows := fun k s =>
  run_induction (R := QueueAndLogAdvance) QueueAndLogAdvance.refl QueueAndLogAdvance.trans step_queueAndLogAdvance k s

/-! ### How a step ends -/

/-- An instruction other than Halt completes, with STATUS, FAULT and HALT_REASON as they were, or its whole effect is a fault
taken. -/
theorem Effect.keeps_status_or_faults {i : Instr} {s t : State} (h : Effect i s t) (hi : i ≠ .halt) :
    (t.status = s.status ∧ t.fault = s.fault ∧ t.haltReason = s.haltReason) ∨ ∃ k, t = takeFault k s := by
  cases h with
  | halt hh => exact absurd hh hi
  | fault k => exact .inr ⟨k, rfl⟩
  | _ => exact .inl ⟨rfl, rfl, rfl⟩

/-- A Running machine in s halts: at the end test, or by a Halt instruction (spec/10_state.md R26). -/
abbrev State.atHalt (s : State) : Prop := 2048 ≤ s.ip ∨ s.current = some .halt

/-- The three arrows out of Running in the state machine of STATUS, with what makes each (spec/10_state.md R26). -/
inductive StepEnding (s t : State) : Prop
  | completes (hnot : ¬ s.atHalt) (hst : t.status = .running) (hf : t.fault = s.fault)
      (hh : t.haltReason = s.haltReason)
  | halts (hat : s.atHalt) (r : HaltReason) (ht : t = s.halt r)
  | faults (hnot : ¬ s.atHalt) (k : Fault) (ht : t = takeFault k s)

theorem step_ending {s t : State} (h : step s = .next t) : StepEnding s t := by
  obtain ⟨hs, heff⟩ := step_effect h
  cases heff with
  | offEnd hip hc => exact .halts (.inl hip) _ rfl
  | decodeFault k hip hc => exact .faults (by simp [hc, hip]) k rfl
  | execute i t hip hc he =>
    by_cases hi : i = .halt
    · subst hi
      exact .halts (.inr hc) _ (exec_halt_iff.mp he)
    · have hnot : ¬ s.atHalt := by simp [hc, hip, hi]
      rcases (exec_effect he).keeps_status_or_faults hi with ⟨hst, hf, hh⟩ | ⟨k, rfl⟩
      · exact .completes hnot (hst.trans hs) hf hh
      · exact .faults hnot k rfl

end Sys2Proof.Machine
end

section
/-! PROOFS. What no execute phase reads: OUTLOG and STATUS (spec/10_state.md R25, R26; spec/44_io.md R173). A change of the state
that leaves all that is read as it is, and that commutes with every write, commutes with every execute phase. Statement O43 and the
last part of O22. -/

namespace Sys2Proof.Machine

/-- The change g of the state touches nothing that an execute phase reads, and nothing that one writes except by a write that
commutes with g. -/
structure Unread (g : State → State) : Prop where
  mem : ∀ s, (g s).mem = s.mem
  ip : ∀ s, (g s).ip = s.ip
  rb : ∀ s, (g s).rb = s.rb
  inq : ∀ s, (g s).inq = s.inq
  writeMem : ∀ s a v, g (s.writeMem a v) = (g s).writeMem a v
  setIp : ∀ s a, g (s.setIp a) = (g s).setIp a
  setRb : ∀ s v, g (s.setRb v) = (g s).setRb v
  popInput : ∀ s, g s.popInput = (g s).popInput
  saveOutput : ∀ s v, g (s.saveOutput v) = (g s).saveOutput v

/-- How the changed state g s is answered where s is answered t: by the changed t, or by the same fault. -/
def AnsweredAlike (g : State → State) (s t : State) (r : Answer) : Prop :=
  r = .next (g t) ∨ ∃ k, t = takeFault k s ∧ r = .next (takeFault k (g s))

/-- Two execute phases of which one schedules the changed state where the other schedules the state end alike. -/
theorem commit_answeredAlike {g : State → State} {s t : State} {r r' : Except Fault State} (hr : r' = g <$> r)
    (h : commit s r = .next t) : AnsweredAlike g s t (commit (g s) r') := by
  subst hr
  rcases commit_eq_next_iff.mp h with rfl | ⟨k, rfl, rfl⟩
  · exact .inl rfl
  · exact .inr ⟨k, rfl, rfl⟩

namespace Unread

variable {g : State → State} (hg : Unread g)
include hg

theorem advance (s : State) (n : Nat) : g (s.advance n) = (g s).advance n := by
  rw [State.advance, hg.setIp, State.advance, hg.ip]

theorem readOperand_eq (c : Config) (s : State) (o : Operand) : readOperand c (g s) o = readOperand c s o := by
  cases o <;> simp only [readOperand, memRead, relativeAddress, hg.mem, hg.rb]

theorem destAddress_eq (c : Config) (s : State) (o : Operand) : destAddress c (g s) o = destAddress c s o := by
  cases o <;> simp only [destAddress, relativeAddress, hg.rb]

theorem frontInput_eq (s : State) : frontInput (g s) = frontInput s := by
  simp only [frontInput, hg.inq]

theorem wordsFrom_eq (c : Config) (s : State) (n : Nat) : ∀ a, (g s).wordsFrom c a n = s.wordsFrom c a n := by
  induction n with
  | zero => exact fun a => rfl
  | succ n ih => intro a; simp only [State.wordsFrom, hg.mem, ih]

theorem fetchWords_eq (c : Config) (s : State) : (g s).fetchWords c = s.fetchWords c := by
  rw [State.fetchWords, hg.wordsFrom_eq, hg.ip, State.fetchWords]

theorem storeResultAt_alike {f : Int → Int → Except Fault Int} {a b d : Operand} {s t : State}
    (h : storeResultAt config f a b d s = .next t) : AnsweredAlike g s t (storeResultAt config f a b d (g s)) :=
  commit_answeredAlike (by simp [map_bind, hg.readOperand_eq, hg.destAddress_eq, hg.advance, hg.writeMem]) h

theorem jumpAt_alike {fires : Int → Bool} {o d : Operand} {s t : State} (h : jumpAt config fires o d s = .next t) :
    AnsweredAlike g s t (jumpAt config fires o d (g s)) :=
  commit_answeredAlike (by simp [map_bind, apply_ite, hg.readOperand_eq, hg.setIp, hg.advance]) h

/-- Every instruction but Halt, whose whole effect is on STATUS and HALT_REASON. -/
theorem exec_alike {i : Instr} (hi : i ≠ .halt) {s t : State} (h : exec i s = .next t) :
    AnsweredAlike g s t (exec i (g s)) := by
  cases i
  case add | multiply | lessThan | equals => exact hg.storeResultAt_alike h
  case jumpIfTrue | jumpIfFalse => exact hg.jumpAt_alike h
  case readInput d =>
    exact commit_answeredAlike (by simp [map_bind, hg.frontInput_eq, hg.destAddress_eq, hg.advance, hg.writeMem, hg.popInput]) h
  case saveOutput a => exact commit_answeredAlike (by simp [map_bind, hg.readOperand_eq, hg.advance, hg.saveOutput]) h
  case adjustRelativeBase a =>
    exact commit_answeredAlike (by simp [map_bind, hg.readOperand_eq, hg.advance, hg.setRb, hg.rb]) h
  case halt => exact absurd rfl hi

end Unread

/-! ### OUTLOG -/

/-- s with the Words l in front of OUTLOG. -/
def State.logAfter (l : List Int) (s : State) : State := { s with outlog := l ++ s.outlog }

theorem unread_logAfter (l : List Int) : Unread (State.logAfter l) where
  mem _ := rfl
  ip _ := rfl
  rb _ := rfl
  inq _ := rfl
  writeMem _ _ _ := rfl
  setIp _ _ := rfl
  setRb _ _ := rfl
  popInput _ := rfl
  saveOutput s v := by simp [State.logAfter, State.saveOutput]

theorem exec_logAfter (l : List Int) {i : Instr} {s t : State} (h : exec i s = .next t) :
    exec i (s.logAfter l) = .next (t.logAfter l) := by
  by_cases hi : i = .halt
  · subst hi
    obtain rfl := exec_halt_iff.mp h
    rfl
  · rcases (unread_logAfter l).exec_alike hi h with h' | ⟨k, rfl, h'⟩
    · exact h'
    · exact h'

/-- Settles O43: the step with other Words in front of OUTLOG makes the same end test, fetches and decodes the same Words, and
executes the same instruction, which reads no OUTLOG. -/
theorem outputLogIsNeverRead : Obligations.OutputLogIsNeverRead := by
  intro s t l ht
  change step (s.logAfter l) = .next (t.logAfter l)
  have hfetch : (s.logAfter l).fetchWords config = s.fetchWords config := (unread_logAfter l).fetchWords_eq config s
  obtain ⟨hs, ⟨hip, rfl⟩ | ⟨hip, e, hd, rfl⟩ | ⟨hip, i, rest, hd, he⟩⟩ := step_cases ht
  · exact step_of_offEnd hs hip
  · exact step_of_decode_error (s := s.logAfter l) hs hip ((congrArg decode hfetch).trans hd)
  · have hc : (s.logAfter l).current = some i :=
      State.current_eq_some_iff.mpr ⟨hs, hip, rest, (congrArg decode hfetch).trans hd⟩
    exact (step_of_current hc).trans (exec_logAfter l he)

/-! ### STATUS -/

/-- s with STATUS x. -/
def State.withStatus (x : Status) (s : State) : State := { s with status := x }

theorem unread_withStatus (x : Status) : Unread (State.withStatus x) where
  mem _ := rfl
  ip _ := rfl
  rb _ := rfl
  inq _ := rfl
  writeMem _ _ _ := rfl
  setIp _ _ := rfl
  setRb _ _ := rfl
  popInput _ := rfl
  saveOutput _ _ := rfl

/-- Changing STATUS before an instruction changes nothing but STATUS after it. -/
theorem exec_withStatus (x : Status) {i : Instr} {s t : State} (h : exec i s = .next t) :
    ∃ y, exec i (s.withStatus x) = .next (t.withStatus y) := by
  by_cases hi : i = .halt
  · subst hi
    obtain rfl := exec_halt_iff.mp h
    exact ⟨.halted, rfl⟩
  · rcases (unread_withStatus x).exec_alike hi h with h' | ⟨k, rfl, h'⟩
    · exact ⟨x, h'⟩
    · exact ⟨.faulted, h'⟩

/-- Settles O22: the transitions are the three endings of a step, and no execute phase reads STATUS. -/
theorem statusChangesAsTheStateMachineSays : Obligations.StatusChangesAsTheStateMachineSays := by
  refine ⟨⟨rfl, rfl⟩, fun s t ht => ?_, fun i s t x h => exec_withStatus x h⟩
  refine ⟨(step_effect ht).1, ?_⟩
  cases step_ending ht with
  | completes hnot hst hf hh =>
    refine ⟨by simp [hst, hnot], ⟨by simp [hst], ?_⟩, fun _ => ⟨hf, hh⟩⟩
    rintro ⟨k, rfl⟩
    rfl
  | halts hat r ht =>
    subst ht
    refine ⟨by simp [hat], ⟨by simp, ?_⟩, by simp⟩
    rintro ⟨k, hk⟩
    exact absurd (congrArg State.status hk) (by simp)
  | faults hnot k ht =>
    subst ht
    exact ⟨by simp [hnot], ⟨fun _ => ⟨k, rfl⟩, fun _ => rfl⟩, by simp⟩

end Sys2Proof.Machine
end

section
/-! PROOFS. Memory: what MemRead and a run of writes give, and the canonical form, which lists exactly the Words that are not 0
(spec/20_memory.md R52 to R54). Statements O34, O35 and O36. -/

namespace Sys2Proof.Machine

/-! ### Reads -/

/-- The zero fill (spec/20_memory.md R52). -/
theorem Memory.read_of_not_listed {m : Memory} {a : Nat} (h : ∀ cell ∈ m, cell.1 ≠ a) : m.read a = 0 := by
  induction m with
  | nil => rfl
  | cons cell m ih =>
    obtain ⟨k, v⟩ := cell
    have hk : k ≠ a := h (k, v) List.mem_cons_self
    rw [Memory.read, if_neg hk]
    exact ih fun cell hc => h cell (List.mem_cons_of_mem _ hc)

/-- Settles O34: the address decoder splits the integers into the addresses of Memory and the others. -/
theorem memReadIsTotalWithinCapacity : Obligations.MemReadIsTotalWithinCapacity := by
  intro s a
  refine ⟨fun h => memRead_ok_iff.mpr ⟨h, rfl⟩, fun h hlist => memRead_ok_iff.mpr ⟨h, ?_⟩, fun h => ?_⟩
  · exact (Memory.read_of_not_listed fun cell hc heq => hlist cell hc (by omega)).symm
  · exact memRead_error_iff.mpr ⟨fun ⟨h0, h1⟩ => by omega, rfl⟩

/-- Settles O35, by induction on the writes, the last one first. -/
theorem readGivesTheMostRecentWrite : Obligations.ReadGivesTheMostRecentWrite := by
  intro m writes a
  induction writes using List.reverseRecOn with
  | nil => rfl
  | append_singleton writes e ih =>
    rw [List.foldl_concat, List.reverse_concat, Memory.read_write, List.find?_cons]
    by_cases he : e.1 = a
    · simp [he]
    · rw [if_neg (Ne.symm he), beq_eq_false_iff_ne.mpr he, ih]

/-! ### The canonical form -/

/-- The address of the first cell is the smaller. -/
abbrev addressBefore (x y : Nat × Int) : Prop := x.1 < y.1

theorem Memory.pairwise_of_wf {m : Memory} (h : m.wf = true) : m.Pairwise addressBefore := by
  induction m with
  | nil => exact .nil
  | cons cell m ih =>
    obtain ⟨-, hk, hm⟩ := Memory.wf_cons.mp h
    exact .cons hk (ih hm)

/-- The canonical form lists exactly the Words that are not 0. -/
theorem Memory.mem_iff_read {m : Memory} (h : m.wf = true) {a : Nat} {v : Int} : (a, v) ∈ m ↔ v ≠ 0 ∧ m.read a = v := by
  induction m with
  | nil => simp [Memory.read_nil, eq_comm]
  | cons cell m ih =>
    obtain ⟨k, u⟩ := cell
    obtain ⟨hu, hk, hm⟩ := Memory.wf_cons.mp h
    by_cases hka : k = a
    · subst hka
      have hrest : (k, v) ∉ m := fun hc => lt_irrefl k (hk _ hc)
      rw [Memory.read, if_pos rfl, List.mem_cons, or_iff_left hrest, Prod.mk.injEq]
      constructor
      · rintro ⟨-, rfl⟩; exact ⟨hu, rfl⟩
      · rintro ⟨-, rfl⟩; exact ⟨rfl, rfl⟩
    · have hne : (a, v) ≠ (k, u) := fun heq => hka (congrArg Prod.fst heq).symm
      rw [Memory.read, if_neg hka, List.mem_cons, or_iff_right hne, ih hm]

/-- Settles O36: two lists with rising addresses that list the same cells are equal. -/
theorem canonicalMemoriesThatReadAlikeAreEqual : Obligations.CanonicalMemoriesThatReadAlikeAreEqual := by
  intro m m' h h' hread
  have hasymm : Std.Asymm addressBefore := ⟨fun _ _ => Nat.lt_asymm⟩
  refine (Memory.pairwise_of_wf h).eq_of_mem_iff (Memory.pairwise_of_wf h') fun ⟨a, v⟩ => ?_
  rw [Memory.mem_iff_read h, Memory.mem_iff_read h', hread]

end Sys2Proof.Machine
end

section
/-! PROOFS. The frames of the instructions, one part of the state at a time, from the seven effects (spec/20_memory.md R66), and
the next step after a store (R63, R65). Statements O16, O17 and O38. -/

namespace Sys2Proof.Machine

/-! ### What an effect leaves unchanged -/

section
variable {i : Instr} {s t : State} (h : Effect i s t)
include h

/-- Only the Word at the destination changes (spec/20_memory.md R66). -/
theorem Effect.read_eq {x : Nat} (hx : ∀ d k, i.destination = some d → DestinationAt s d k → x ≠ k) :
    t.mem.read x = s.mem.read x := by
  cases h with
  | store d k r hi hid hd => exact Memory.read_write_of_ne _ _ (hx d k hid hd)
  | input d v k hi hv hd => exact Memory.read_write_of_ne _ _ (hx d k (by rw [hi]; rfl) hd)
  | _ => rfl

theorem Effect.rb_eq (hi : ∀ a, i ≠ .adjustRelativeBase a) : t.rb = s.rb := by
  rcases h.rb_cases with hrb | ⟨a, v, hia, -, -⟩
  · exact hrb
  · exact absurd hia (hi a)

theorem Effect.inq_cases : t.inq = s.inq ∨ ∃ d, i = .readInput d ∧ t.inq = s.inq.tail := by
  cases h with
  | input d v k hi hv hd => exact .inr ⟨d, hi, rfl⟩
  | _ => exact .inl rfl

theorem Effect.inq_eq (hi : ∀ d, i ≠ .readInput d) : t.inq = s.inq := by
  rcases h.inq_cases with hinq | ⟨d, hid, -⟩
  · exact hinq
  · exact absurd hid (hi d)

theorem Effect.outlog_eq (hi : ∀ a, i ≠ .saveOutput a) : t.outlog = s.outlog := by
  cases h with
  | output a v hia hv => exact absurd hia (hi a)
  | _ => rfl

theorem Effect.endKeptOrFaulted (hi : i ≠ .halt) : EndKeptOrFaulted s t := by
  rcases h.keeps_status_or_faults hi with ⟨hst, hf, hh⟩ | hfault
  · exact .inl ⟨hst, hh, hf⟩
  · exact .inr hfault

/-- An instruction without a destination writes no Word. -/
theorem Effect.read_eq_of_no_destination (hi : i.destination = none) (x : Nat) : t.mem.read x = s.mem.read x :=
  h.read_eq fun d _ hd => by simp [hi] at hd

theorem Effect.read_eq_of_destination {d : Operand} (hi : i.destination = some d) {x : Nat}
    (hx : ∀ k, DestinationAt s d k → x ≠ k) : t.mem.read x = s.mem.read x :=
  h.read_eq fun d' k hd' hk => by
    obtain rfl : d' = d := Option.some.inj (hd'.symm.trans hi)
    exact hx k hk

end

/-- Settles O16: the five instructions are those with a destination, and none of them is one that writes RB, OUTLOG or how the run
ends. -/
theorem storingInstructionsFrame : Obligations.StoringInstructionsFrame := by
  intro a b d s t i hi h
  have heff := exec_effect h
  have hdest : i.destination = some d := by
    simp only [List.mem_cons, List.not_mem_nil, or_false] at hi
    rcases hi with rfl | rfl | rfl | rfl | rfl <;> rfl
  have hne (j : Instr) (hj : j.destination = none) : i ≠ j := by
    rintro rfl
    simp [hj] at hdest
  refine ⟨fun x hx => heff.read_eq_of_destination hdest fun k hk => hx k (destAddress_ok_iff.mpr hk),
    heff.rb_eq fun _ => hne _ rfl, heff.outlog_eq fun _ => hne _ rfl, ?_, heff.endKeptOrFaulted (hne _ rfl)⟩
  rcases heff.inq_cases with hinq | ⟨d', rfl, hinq⟩
  · exact .inl hinq
  · obtain rfl : d' = d := Option.some.inj hdest
    exact .inr ⟨rfl, hinq⟩

/-- The frame of a jump, whichever of the two it is. -/
theorem Effect.jump_frame {i : Instr} {s t : State} (h : Effect i s t) {o g : Operand}
    (hi : i = .jumpIfTrue o g ∨ i = .jumpIfFalse o g) :
    (∀ x, t.mem.read x = s.mem.read x) ∧ t.rb = s.rb ∧ t.inq = s.inq ∧ t.outlog = s.outlog ∧ EndKeptOrFaulted s t := by
  rcases hi with rfl | rfl
  all_goals
    exact ⟨h.read_eq_of_no_destination rfl, h.rb_eq fun _ => nofun, h.inq_eq fun _ => nofun, h.outlog_eq fun _ => nofun,
      h.endKeptOrFaulted nofun⟩

/-- Settles O17: the five instructions have no destination, and each is the only one that writes its own register. -/
theorem nonStoringInstructionsFrame : Obligations.NonStoringInstructionsFrame := by
  intro s t
  refine ⟨fun a h => ?saveOutput, fun o g h => ?jump, fun a h => ?adjustRelativeBase, fun h => ?halt⟩
  case saveOutput =>
    have heff := exec_effect h
    exact ⟨heff.read_eq_of_no_destination rfl, heff.rb_eq fun _ => nofun, heff.inq_eq fun _ => nofun,
      heff.endKeptOrFaulted nofun⟩
  case jump =>
    rcases h with h | h
    · exact (exec_effect h).jump_frame (.inl rfl)
    · exact (exec_effect h).jump_frame (.inr rfl)
  case adjustRelativeBase =>
    have heff := exec_effect h
    exact ⟨heff.read_eq_of_no_destination rfl, heff.inq_eq fun _ => nofun, heff.outlog_eq fun _ => nofun,
      heff.endKeptOrFaulted nofun⟩
  case halt =>
    obtain rfl := exec_halt_iff.mp h
    exact ⟨fun x => rfl, rfl, rfl, rfl, rfl, rfl⟩

/-! ### The step after a store -/

/-- An encoded size is one Word more than the operands (spec/30_encoding.md R80). -/
theorem size_eq_operands_length (i : Instr) : i.opcode.size = i.operands.length + 1 := by
  cases i <;> rfl

theorem operands_length_le_three (i : Instr) : i.operands.length ≤ 3 := by
  cases i <;> simp [Instr.operands]

/-- Only the jumps have two operands, and both are sources (spec/30_encoding.md R87). -/
theorem destination_eq_none_of_two_operands {i : Instr} (h : i.operands.length = 2) : i.destination = none := by
  cases i <;> simp_all [Instr.operands, Instr.destination]

/-- A storing instruction that completes goes on to the instruction after it. -/
theorem Effect.ip_of_store {i : Instr} {s t : State} (h : Effect i s t) {d : Operand} (hd : i.destination = some d)
    (ht : t.status ≠ .faulted) : t.ip = s.ip + i.opcode.size := by
  cases h with
  | store d' k r hi hid hk => rw [size_eq_operands_length, hi]; rfl
  | input d' v k hi hv hk => subst hi; rfl
  | fault k => exact absurd rfl ht
  | output a v hi hv => subst hi; exact absurd hd nofun
  | adjust a v hi hv hw => subst hi; exact absurd hd nofun
  | halt hi => subst hi; exact absurd hd nofun
  | jump k hi => simp [destination_eq_none_of_two_operands hi] at hd

/-- Words that decode to j and stand at IP make j the current instruction, whatever follows them (spec/30_encoding.md R93). The
Words after those of j need not be fetched. -/
theorem current_of_words {s : State} (hs : s.status = .running) {ws rest : List Int} {j : Instr}
    (hd : decode ws = .ok (j, rest)) (hip : s.ip + ws.length ≤ 2048)
    (hr : ∀ n, n < ws.length → s.mem.read (s.ip + n) = ws.getD n 0) : s.current = some j := by
  obtain ⟨w, rfl, hop, hm⟩ := decode_ok_words hd
  simp only [List.length_cons, List.length_append, List.length_map] at hip hr
  have hlen : (w :: j.operands.map Operand.payload).length = j.operands.length + 1 := by simp
  have hstand : ∀ n, n < (w :: j.operands.map Operand.payload).length →
      s.mem.read (s.ip + n) = (w :: j.operands.map Operand.payload).getD n 0 := fun n hn => by
    rw [hr n (by omega), ← List.cons_append, List.getD_append _ _ _ _ hn]
  have hmax := operands_length_le_three j
  obtain ⟨rest', hrest'⟩ := wordsFrom_eq_append _ 4 s.ip (by omega) (by omega) hstand
  refine State.current_eq_some_iff.mpr ⟨hs, by omega, rest', ?_⟩
  rw [State.fetchWords, hrest']
  exact decode_of_words hop hm

theorem DestinationAt.unique {s : State} {d : Operand} {k k' : Nat} (h : DestinationAt s d k) (h' : DestinationAt s d k') :
    k = k' :=
  Except.ok.inj ((destAddress_ok_iff.mpr h).symm.trans (destAddress_ok_iff.mpr h'))

/-- Settles O38: the Words at the new IP are those before the step but for the stored one, and whatever they decode to is the
current instruction. -/
theorem storedWordIsExecutedNext : Obligations.StoredWordIsExecutedNext := by
  intro s t i d k hc hdest hk hstep ht
  rw [step_of_current hc] at hstep
  have heff := exec_effect hstep
  refine ⟨heff.ip_of_store hdest (by simp [ht]), fun ws rest j hd hip hr => step_of_current (current_of_words ht hd hip ?_)⟩
  intro n hn
  rw [← hr n hn]
  split
  · next hnk => rw [hnk]
  · next hnk =>
    refine heff.read_eq_of_destination hdest fun k' hk' => ?_
    rwa [hk'.unique (destAddress_ok_iff.mp hk)]

end Sys2Proof.Machine
end

section
/-! PROOFS. The decimal encoding (spec/30_encoding.md R81 to R93): the digits of an instruction word, which operand stops the
decoder and which does not, and the step at every instruction word. Statements O27, O28, O30 and O31. -/

namespace Sys2Proof

/-! ### Digits -/

/-- The opcode value of a word that is not negative (spec/30_encoding.md R81, R82). -/
theorem opcodeDigits_eq_emod {w : Int} (hw : 0 ≤ w) : opcodeDigits w = w % 100 := Int.tmod_eq_emod_of_nonneg hw

/-- Mode n stands in the digit of weight 10^(n + 1) (spec/30_encoding.md R81, R83). -/
theorem modeDigit_eq_decimalDigit (w : Int) {n : Nat} (hn : 1 ≤ n) : modeDigit w n = Machine.decimalDigit w (n + 1) := by
  obtain ⟨k, rfl⟩ : ∃ k, n = k + 1 := ⟨n - 1, by omega⟩
  have hweight : (100 : Int) * 10 ^ k = 10 ^ (k + 1 + 1) := by ring
  rw [modeDigit, tdiv_tdiv w (by decide), Nat.add_sub_cancel, hweight, Machine.decimalDigit]

theorem decimalDigit_eq_ediv_emod {w : Int} (hw : 0 ≤ w) (i : Nat) : Machine.decimalDigit w i = w / 10 ^ i % 10 := by
  rw [Machine.decimalDigit, Int.tdiv_eq_ediv_of_nonneg hw,
    Int.tmod_eq_emod_of_nonneg (Int.ediv_nonneg hw (by positivity))]

theorem modeDigit_eq_ediv_emod {w : Int} (hw : 0 ≤ w) {n : Nat} (hn : 1 ≤ n) : modeDigit w n = w / 10 ^ (n + 1) % 10 := by
  rw [modeDigit_eq_decimalDigit w hn, decimalDigit_eq_ediv_emod hw]

/-- Settles O27: for a word that is not negative truncating division is the floor division of decimal digits. -/
theorem instructionWordHasTheDecimalLayout : Obligations.InstructionWordHasTheDecimalLayout := by
  refine ⟨?_, fun w hw => opcodeDigits_eq_emod hw, fun w n hw hn => modeDigit_eq_ediv_emod hw hn⟩
  intro c m1 m2 m3 u hc hc' h1 h1' h2 h2' h3 h3' hu
  have hw : 0 ≤ c + 100 * m1 + 1000 * m2 + 10000 * m3 + 100000 * u := by omega
  rw [opcodeDigits_eq_emod hw, modeDigit_eq_ediv_emod hw le_rfl, modeDigit_eq_ediv_emod hw (by decide),
    modeDigit_eq_ediv_emod hw (by decide)]
  refine ⟨?_, ?_, ?_, ?_⟩ <;> omega

/-! ### Canonical instruction words -/

theorem Opcode.code_bounds (op : Opcode) : 1 ≤ op.code ∧ op.code ≤ 99 := by cases op <;> decide

/-- The truncating remainder of a negative word is not positive (spec/30_encoding.md R92). -/
theorem opcodeDigits_nonpos {w : Int} (hw : w ≤ 0) : opcodeDigits w ≤ 0 := by
  have hneg : 0 ≤ (-w).tmod 100 := Int.tmod_nonneg 100 (by omega)
  rw [Int.neg_tmod] at hneg
  exact Int.neg_nonneg.mp hneg

/-- A word of a row is not negative (spec/30_encoding.md R92). -/
theorem nonneg_of_opcodeDigits {w : Int} {op : Opcode} (h : opcodeDigits w = op.code) : 0 ≤ w := by
  by_contra hw
  have hneg := opcodeDigits_nonpos (w := w) (by omega)
  have hpos := op.code_bounds
  omega

/-- A remainder by a product, digit by digit. -/
theorem emod_mul_eq {b c : Int} (a : Int) (hb : 0 ≤ b) : a % (b * c) = a % b + b * (a / b % c) := by
  simp only [Int.emod_def, Int.ediv_ediv_of_nonneg hb]
  ring

/-- The mode digits of a canonical word are the low digits of whatever has these digits (spec/30_encoding.md R81). -/
theorem modeDigits_eq_mul_emod (os : List Operand) : ∀ (weight q : Int),
    (∀ n (hn : n < os.length), q / 10 ^ n % 10 = os[n].mode) → modeDigits weight os = weight * (q % 10 ^ os.length) := by
  induction os with
  | nil => intro weight q _; simp [modeDigits]
  | cons o os ih =>
    intro weight q h
    have hfirst : q / 10 ^ 0 % 10 = o.mode := h 0 (by simp)
    rw [pow_zero, Int.ediv_one] at hfirst
    have hrest := ih (10 * weight) (q / 10) fun n hn => by
      rw [Int.ediv_ediv_of_nonneg (by decide), ← pow_succ']
      exact h (n + 1) (by simpa using hn)
    rw [modeDigits, hrest, List.length_cons, pow_succ', emod_mul_eq q (by decide), hfirst]
    ring

/-- An instruction word with the opcode and the modes of i has i's canonical word as its low digits (spec/30_encoding.md R81,
R96). -/
theorem Instr.word_eq_emod {w : Int} {i : Instr} (hop : opcodeDigits w = i.opcode.code)
    (hm : ∀ n (hn : n < i.operands.length), modeDigit w (n + 1) = (i.operands[n]).mode) :
    i.word = w % 10 ^ (i.operands.length + 2) := by
  have hw : 0 ≤ w := nonneg_of_opcodeDigits hop
  have hmodes := modeDigits_eq_mul_emod i.operands 100 (w / 100) fun n hn => by
    rw [← hm n hn, modeDigit_eq_ediv_emod hw (by omega), Int.ediv_ediv_of_nonneg (by decide)]
    ring_nf
  have hpow : (10 : Int) ^ (i.operands.length + 2) = 100 * 10 ^ i.operands.length := by ring
  rw [Instr.word, hmodes, ← hop, opcodeDigits_eq_emod hw, hpow, emod_mul_eq w (by decide)]

/-- Settles O30: the ignored digits are the quotient by the weight of the first of them. -/
theorem decodedWordsDifferFromCanonicalOnlyInIgnoredDigits :
    Obligations.DecodedWordsDifferFromCanonicalOnlyInIgnoredDigits := by
  intro ws rest i h
  obtain ⟨w, rfl, hop, hm⟩ := decode_ok_words h
  have hweight : (0 : Int) < 10 ^ (i.operands.length + 2) := by positivity
  rw [Instr.word_eq_emod hop hm]
  exact ⟨w, w / 10 ^ (i.operands.length + 2), rfl, Int.ediv_nonneg (nonneg_of_opcodeDigits hop) hweight.le,
    (Int.emod_add_mul_ediv w _).symm, Int.emod_nonneg w hweight.ne', Int.emod_lt_of_pos w hweight⟩

/-- Settles O31: the decoder is evaluated on the nine lists. -/
theorem specExampleWordsDecode : Obligations.SpecExampleWordsDecode := by
  unfold Obligations.SpecExampleWordsDecode
  decide

/-! ### Which operand stops the decoder -/

/-- The operands n, n + 1, ... of an instruction word, `k` of them, decoded only for the Words they leave over. -/
def takeOperands (w : Int) : Nat → Nat → List Int → Except DecodeError (List Int)
  | 0, _, ps => .ok ps
  | k + 1, n, ps => do
    let (_, ps) ← decodeOperand w n ps
    takeOperands w k (n + 1) ps

/-- A row fails to decode just as its operands one after another do (spec/40_step_and_operands.md R115). -/
theorem decodeRow_error_iff {op : Opcode} {w : Int} {ps : List Int} {e : DecodeError} :
    decodeRow op w ps = .error e ↔ takeOperands w op.operandCount 1 ps = .error e := by
  cases op <;>
    simp [decodeRow, decodeF1, decodeF2, decodeF3, takeOperands, Opcode.operandCount, Machine.bind_eq_error_iff]

/-- Operand n takes the first of the Words ps: its mode digit selects a mode, and there is such a Word. -/
def OperandPresent (w : Int) (n : Nat) (ps : List Int) : Prop := modeOfDigit (modeDigit w n) ≠ none ∧ ps ≠ []

theorem OperandPresent.decodeOperand_eq {w : Int} {n : Nat} {ps : List Int} (h : OperandPresent w n ps) :
    ∃ o, decodeOperand w n ps = .ok (o, ps.tail) := by
  obtain ⟨hmode, hps⟩ := h
  cases hd : decodeOperand w n ps with
  | ok r =>
    obtain ⟨o, rest⟩ := r
    obtain ⟨rfl, -⟩ := decodeOperand_ok_iff.mp hd
    exact ⟨o, rfl⟩
  | error e =>
    rcases decodeOperand_error_iff.mp hd with ⟨hnone, -⟩ | ⟨-, hnil, -⟩
    · exact absurd hnone hmode
    · exact absurd hnil hps

theorem takeOperands_succ {w : Int} {k n : Nat} {ps : List Int} (h : OperandPresent w n ps) :
    takeOperands w (k + 1) n ps = takeOperands w k (n + 1) ps.tail := by
  obtain ⟨o, ho⟩ := h.decodeOperand_eq
  rw [takeOperands, ho]
  rfl

/-- Operands that are all present stop nothing. -/
theorem takeOperands_of_present {w : Int} (k : Nat) : ∀ {n : Nat} {ps : List Int},
    (∀ m, m < k → OperandPresent w (n + m) (ps.drop m)) → takeOperands w k n ps = .ok (ps.drop k) := by
  induction k with
  | zero => intro n ps _; rfl
  | succ k ih =>
    intro n ps h
    have hfirst : OperandPresent w n ps := h 0 (by omega)
    rw [takeOperands_succ hfirst, ih fun m hm => ?_, List.drop_tail]
    rw [List.drop_tail, Nat.add_right_comm]
    exact h (m + 1) (by omega)

/-- The first operand that fails stops the decoder (spec/40_step_and_operands.md R115). -/
theorem takeOperands_error {w : Int} {e : DecodeError} (j : Nat) : ∀ {k n : Nat} {ps : List Int}, j < k →
    (∀ m, m < j → OperandPresent w (n + m) (ps.drop m)) → decodeOperand w (n + j) (ps.drop j) = .error e →
      takeOperands w k n ps = .error e := by
  induction j with
  | zero =>
    intro k n ps hk _ he
    obtain ⟨k, rfl⟩ : ∃ k', k = k' + 1 := ⟨k - 1, by omega⟩
    have hfirst : decodeOperand w n ps = .error e := he
    rw [takeOperands, hfirst]
    rfl
  | succ j ih =>
    intro k n ps hk h he
    obtain ⟨k, rfl⟩ : ∃ k', k = k' + 1 := ⟨k - 1, by omega⟩
    have hfirst : OperandPresent w n ps := h 0 (by omega)
    rw [takeOperands_succ hfirst]
    refine ih (by omega) (fun m hm => ?_) ?_
    · rw [List.drop_tail, Nat.add_right_comm]
      exact h (m + 1) (by omega)
    · rw [List.drop_tail, Nat.add_right_comm]
      exact he

theorem Opcode.operandCount_le (op : Opcode) : op.operandCount ≤ 3 := by cases op <;> decide

theorem Instr.operandCount_opcode (i : Instr) : i.opcode.operandCount = i.operands.length := by cases i <;> rfl

theorem decode_cons {w : Int} {ps : List Int} {op : Opcode} (hop : opcodeDigits w = op.code) :
    decode (w :: ps) = decodeRow op w ps := by
  simp only [decode, Opcode.ofCode_eq_some_iff.mpr hop]

theorem decode_cons_illegal {w : Int} (ps : List Int) (hop : ∀ op : Opcode, opcodeDigits w ≠ op.code) :
    decode (w :: ps) = .error (.unknownOpcode (opcodeDigits w)) := by
  simp only [decode, Opcode.ofCode_eq_none_iff.mpr hop]

/-- A word of a row whose operands are all present decodes (spec/30_encoding.md R84). -/
theorem decode_of_present {w : Int} {ps : List Int} {op : Opcode} (hop : opcodeDigits w = op.code)
    (h : ∀ m, m < op.operandCount → OperandPresent w (m + 1) (ps.drop m)) :
    ∃ i rest, decode (w :: ps) = .ok (i, rest) := by
  rw [decode_cons hop]
  cases hd : decodeRow op w ps with
  | ok r => exact ⟨r.1, r.2, rfl⟩
  | error e =>
    rw [decodeRow_error_iff, takeOperands_of_present _ fun m hm => by rw [Nat.add_comm]; exact h m hm] at hd
    exact absurd hd (by simp)

/-- A word of a row whose first operand that is not present is operand j + 1 (spec/40_step_and_operands.md R115). -/
theorem decode_of_operand_error {w : Int} {ps : List Int} {op : Opcode} {e : DecodeError} {j : Nat}
    (hop : opcodeDigits w = op.code) (hj : j < op.operandCount)
    (h : ∀ m, m < j → OperandPresent w (m + 1) (ps.drop m)) (he : decodeOperand w (j + 1) (ps.drop j) = .error e) :
    decode (w :: ps) = .error e := by
  rw [decode_cons hop, decodeRow_error_iff]
  exact takeOperands_error j hj (fun m hm => by rw [Nat.add_comm]; exact h m hm) (by rw [Nat.add_comm]; exact he)

end Sys2Proof

namespace Sys2Proof.Machine

/-! ### The step at every instruction word -/

/-- The claims' table is the decoder's (spec/30_encoding.md R86). -/
theorem mem_dispatchTable_iff {row : Int × Nat} : row ∈ dispatchTable ↔ ∃ op : Opcode, row = (op.code, op.operandCount) := by
  have htable : dispatchTable = Opcode.all.map fun op => (op.code, op.operandCount) := rfl
  rw [htable, List.mem_map]
  constructor
  · rintro ⟨op, -, rfl⟩; exact ⟨op, rfl⟩
  · rintro ⟨op, rfl⟩; exact ⟨op, op.mem_all, rfl⟩

theorem wordsFrom_getElem {c : Config} {s : State} (n : Nat) : ∀ (a j : Nat) (hj : j < (s.wordsFrom c a n).length),
    (s.wordsFrom c a n)[j] = s.mem.read (a + j) := by
  induction n with
  | zero => intro a j hj; exact absurd hj (by simp [State.wordsFrom])
  | succ n ih =>
    intro a j hj
    have ha : a < c.cap := by rw [wordsFrom_length] at hj; omega
    simp only [State.wordsFrom, if_pos ha] at hj ⊢
    cases j with
    | zero => rfl
    | succ j => rw [List.getElem_cons_succ, ih, Nat.add_right_comm]; rfl

/-- The Words after the instruction word that a step may fetch. -/
def State.parameterWords (s : State) : List Int := s.wordsFrom config (s.ip + 1) 3

theorem State.fetchWords_eq_cons {s : State} (hip : s.ip < 2048) :
    s.fetchWords config = s.mem.read s.ip :: s.parameterWords := by
  rw [State.fetchWords, State.wordsFrom, config_cap, if_pos hip]
  rfl

/-- There is a parameter word for operand m + 1 exactly if its address is below CAP (spec/40_step_and_operands.md R115). -/
theorem State.drop_parameterWords_eq_nil_iff {s : State} {m : Nat} (hm : m < 3) :
    s.parameterWords.drop m = [] ↔ 2048 ≤ s.ip + (m + 1) := by
  rw [List.drop_eq_nil_iff, State.parameterWords, wordsFrom_length, config_cap]
  omega

/-- A digit that is not negative selects a mode exactly if it is at most 2 (spec/30_encoding.md R84, R91). -/
theorem modeOfDigit_modeDigit_eq_none_iff {w : Int} (hw : 0 ≤ w) (m : Nat) :
    modeOfDigit (modeDigit w (m + 1)) = none ↔ ¬ decimalDigit w (m + 2) ≤ 2 := by
  have hdigit := decimalDigit_eq_ediv_emod hw (m + 2)
  have hmode : modeDigit w (m + 1) = decimalDigit w (m + 2) := modeDigit_eq_decimalDigit w (by omega)
  rw [hmode, modeOfDigit_eq_none_iff]
  omega

theorem State.operandPresent_iff {s : State} {w : Int} (hw : 0 ≤ w) {m : Nat} (hm : m < 3) :
    OperandPresent w (m + 1) (s.parameterWords.drop m) ↔ decimalDigit w (m + 2) ≤ 2 ∧ s.ip + (m + 1) < 2048 := by
  rw [OperandPresent, Ne, modeOfDigit_modeDigit_eq_none_iff hw, Ne, State.drop_parameterWords_eq_nil_iff hm,
    not_not, Nat.not_le]

/-- The mode and the parameter word of an operand determine it (spec/30_encoding.md R84). -/
theorem operandIs_mode_payload (o : Operand) : OperandIs o.mode o.payload o := by
  cases o <;> simp [OperandIs, Operand.mode, Operand.payload]

section
variable {s : State} (hs : s.status = .running) (hip : s.ip < 2048)
include hs hip

theorem raises_of_decode_error {e : DecodeError} (hd : decode (s.mem.read s.ip :: s.parameterWords) = .error e) :
    Raises (step s) (decodeFault s.ip e) := by
  rw [step_of_decode_error hs hip (by rw [State.fetchWords_eq_cons hip, hd])]
  exact raises_takeFault s _

/-- A word of no row (spec/30_encoding.md R90). -/
theorem raises_unknownOpcode (h : ∀ op : Opcode, opcodeDigits (s.mem.read s.ip) ≠ op.code) :
    Raises (step s) (.unknownOpcode (opcodeDigits (s.mem.read s.ip)) s.ip) :=
  raises_of_decode_error hs hip (decode_cons_illegal _ h)

variable {op : Opcode} (hop : opcodeDigits (s.mem.read s.ip) = op.code)
include hop

/-- The first operand that is not present has a mode digit 3 to 9 (spec/30_encoding.md R91). -/
theorem raises_invalidMode {j : Nat} (hj : j < op.operandCount)
    (h : ∀ m, m < j → OperandPresent (s.mem.read s.ip) (m + 1) (s.parameterWords.drop m))
    (hbad : ¬ decimalDigit (s.mem.read s.ip) (j + 2) ≤ 2) :
    Raises (step s) (.invalidMode (s.mem.read s.ip) (j + 1) s.ip) := by
  have hmode := (modeOfDigit_modeDigit_eq_none_iff (nonneg_of_opcodeDigits hop) j).mpr hbad
  exact raises_of_decode_error hs hip (decode_of_operand_error hop hj h (decodeOperand_error_iff.mpr (.inl ⟨hmode, rfl⟩)))

/-- The first operand that is not present has no parameter word (spec/40_step_and_operands.md R115). -/
theorem raises_missingParameter {j : Nat} (hj : j < op.operandCount)
    (h : ∀ m, m < j → OperandPresent (s.mem.read s.ip) (m + 1) (s.parameterWords.drop m))
    (hgood : decimalDigit (s.mem.read s.ip) (j + 2) ≤ 2) (hend : 2048 ≤ s.ip + (j + 1)) :
    Raises (step s) (.outOfBounds ((s.ip + (j + 1) : Nat) : Int)) := by
  have hcount := op.operandCount_le
  have hmode := (modeOfDigit_modeDigit_eq_none_iff (nonneg_of_opcodeDigits hop) j).not.mpr (not_not_intro hgood)
  have hnil := (State.drop_parameterWords_eq_nil_iff (by omega)).mpr hend
  exact raises_of_decode_error hs hip
    (decode_of_operand_error hop hj h (decodeOperand_error_iff.mpr (.inr ⟨hmode, hnil, rfl⟩)))

/-- A word of a row with all its operands present (spec/30_encoding.md R84). -/
theorem step_of_operands_present
    (h : ∀ m, m < op.operandCount → OperandPresent (s.mem.read s.ip) (m + 1) (s.parameterWords.drop m)) :
    ∃ i, step s = exec i s ∧ i.opcode = op ∧ ∀ n (hn : n < i.operands.length),
      OperandIs (decimalDigit (s.mem.read s.ip) (n + 2)) (s.mem.read (s.ip + n + 1)) (i.operands[n]) := by
  obtain ⟨i, rest, hd⟩ := decode_of_present hop h
  have hcurrent : s.current = some i :=
    State.current_eq_some_iff.mpr ⟨hs, hip, rest, by rw [State.fetchWords_eq_cons hip, hd]⟩
  obtain ⟨w, hwords, hop', hmodes⟩ := decode_ok_words hd
  obtain ⟨rfl, hps⟩ := List.cons.inj hwords
  refine ⟨i, step_of_current hcurrent, Opcode.code_injective (hop'.symm.trans hop), fun n hn => ?_⟩
  have hn' : n < s.parameterWords.length := by rw [hps, List.length_append, List.length_map]; omega
  have hpayload : s.mem.read (s.ip + n + 1) = (i.operands[n]).payload := by
    calc s.mem.read (s.ip + n + 1) = s.parameterWords[n] := by
          rw [Nat.add_right_comm]; exact (wordsFrom_getElem 3 (s.ip + 1) n hn').symm
      _ = (i.operands[n]).payload := by
          simp only [hps]
          rw [List.getElem_append_left (by simpa using hn), List.getElem_map]
  rw [hpayload, ← modeDigit_eq_decimalDigit _ (by omega), hmodes n hn]
  exact operandIs_mode_payload _

end

/-- Settles O28: a word is of no row, as every negative word is, or of one; then its first operand that is not present raises
its fault, and if all are present the decoded instruction is executed. -/
theorem everyInstructionWordIsClassified : Obligations.EveryInstructionWordIsClassified := by
  rintro s w hs hip rfl
  refine ⟨fun hneg => ⟨raises_unknownOpcode hs hip fun op hop => ?_, ?_⟩,
    fun hrow => raises_unknownOpcode hs hip fun op => hrow _ (mem_dispatchTable_iff.mpr ⟨op, rfl⟩), fun row hrow hop => ?_⟩
  · exact absurd (nonneg_of_opcodeDigits hop) (by omega)
  · have hlow := Int.lt_tmod_of_pos (s.mem.read s.ip) (show (0 : Int) < 100 by decide)
    exact ⟨by omega, opcodeDigits_nonpos hneg.le⟩
  · obtain ⟨op, rfl⟩ := mem_dispatchTable_iff.mp hrow
    have hw := nonneg_of_opcodeDigits hop
    have hcount := op.operandCount_le
    refine ⟨fun n hn hnc hprior => ?_, fun hall => ?_⟩
    · obtain ⟨j, rfl⟩ : ∃ j, n = j + 1 := ⟨n - 1, by omega⟩
      have hpresent : ∀ m, m < j → OperandPresent (s.mem.read s.ip) (m + 1) (s.parameterWords.drop m) := fun m hm =>
        (State.operandPresent_iff hw (by omega)).mpr (hprior (m + 1) (by omega) (by omega))
      refine ⟨fun hbad => raises_invalidMode hs hip hop hnc hpresent (Int.not_le.mpr hbad), fun hgood hend => ?_⟩
      have hcap : s.ip + (j + 1) = 2048 := by
        rcases Nat.eq_zero_or_pos j with rfl | hj
        · omega
        · obtain ⟨-, hlt⟩ := hprior j hj (by omega)
          omega
      have hraises := raises_missingParameter hs hip hop hnc hpresent hgood hend
      rwa [hcap] at hraises
    · obtain ⟨i, hstep, rfl, hoperands⟩ := step_of_operands_present hs hip hop fun m hm =>
        (State.operandPresent_iff hw (by omega)).mpr (hall (m + 1) (by omega) (by omega))
      exact ⟨i, hstep, rfl, i.operandCount_opcode.symm, hoperands⟩

end Sys2Proof.Machine
end

section
/-! PROOFS. The program literal (spec/30_encoding.md R98 to R100): splitting at commas, trimming, one token, and the whole
literal. Statement O48. -/

namespace Sys2Proof.Machine

/-! ### Splitting at commas -/

theorem splitCommas_ne_nil (cs : List Char) : splitCommas cs ≠ [] := by
  cases cs with
  | nil => simp [splitCommas]
  | cons ch cs => unfold splitCommas; split <;> (try split) <;> simp

/-- A comma ends the token before it (spec/30_encoding.md R98). -/
theorem splitCommas_comma (cs : List Char) : splitCommas (',' :: cs) = [] :: splitCommas cs := by
  obtain ⟨t, ts, h⟩ := List.exists_cons_of_ne_nil (splitCommas_ne_nil cs)
  simp [splitCommas, h]

/-- Any other character belongs to the first token. -/
theorem splitCommas_cons {ch : Char} (hch : ch ≠ ',') (cs : List Char) :
    ∃ t ts, splitCommas cs = t :: ts ∧ splitCommas (ch :: cs) = (ch :: t) :: ts := by
  obtain ⟨t, ts, h⟩ := List.exists_cons_of_ne_nil (splitCommas_ne_nil cs)
  exact ⟨t, ts, h, by simp [splitCommas, h, hch]⟩

/-- One token more than there are commas (spec/30_encoding.md R98). -/
theorem length_splitCommas (cs : List Char) : (splitCommas cs).length = cs.count ',' + 1 := by
  induction cs with
  | nil => rfl
  | cons ch cs ih =>
    by_cases hch : ch = ','
    · subst hch
      rw [splitCommas_comma, List.length_cons, ih, List.count_cons_self]
    · obtain ⟨t, ts, h, h'⟩ := splitCommas_cons hch cs
      rw [h', List.count_cons_of_ne hch, ← ih, h, List.length_cons, List.length_cons]

/-- Text without a comma, put before text that splits, goes to the front of its first token. -/
theorem splitCommas_append {t : List Char} (ht : ',' ∉ t) {cs u : List Char} {us : List (List Char)}
    (hcs : splitCommas cs = u :: us) : splitCommas (t ++ cs) = (t ++ u) :: us := by
  induction t with
  | nil => exact hcs
  | cons ch t ih =>
    obtain ⟨hch, ht⟩ := not_or.mp (List.mem_cons.not.mp ht)
    obtain ⟨u', us', h, h'⟩ := splitCommas_cons (Ne.symm hch) (t ++ cs)
    obtain ⟨rfl, rfl⟩ := List.cons.inj (h.symm.trans (ih ht))
    exact h'

theorem splitCommas_append_comma {t : List Char} (ht : ',' ∉ t) (cs : List Char) :
    splitCommas (t ++ ',' :: cs) = t :: splitCommas cs := by
  rw [splitCommas_append ht (splitCommas_comma cs), List.append_nil]

theorem splitCommas_of_not_mem {t : List Char} (ht : ',' ∉ t) : splitCommas t = [t] := by
  simpa using splitCommas_append ht (cs := []) rfl

/-! ### Trimming -/

theorem dropWhile_isWhitespace_eq_self {t : List Char} (ht : ∀ ch ∈ t, ch.isWhitespace = false) :
    t.dropWhile Char.isWhitespace = t :=
  List.dropWhile_eq_self_iff.mpr fun hl => by simp [ht _ (List.getElem_mem hl)]

/-- Whitespace at both ends is removed (spec/30_encoding.md R99). -/
theorem trim_append {before t after : List Char} (hb : ∀ ch ∈ before, ch.isWhitespace = true)
    (ht : ∀ ch ∈ t, ch.isWhitespace = false) (ha : ∀ ch ∈ after, ch.isWhitespace = true) :
    trim (before ++ t ++ after) = t := by
  rw [trim, List.append_assoc, List.dropWhile_append_of_pos hb]
  cases t with
  | nil =>
    have hnil : after.dropWhile Char.isWhitespace = [] := List.dropWhile_eq_nil_iff.mpr ha
    rw [List.nil_append, hnil]
    rfl
  | cons ch cs =>
    have hfront : (ch :: cs ++ after).dropWhile Char.isWhitespace = ch :: cs ++ after := by
      simp [ht ch List.mem_cons_self]
    rw [hfront, List.reverse_append, List.dropWhile_append_of_pos (by simpa using ha),
      dropWhile_isWhitespace_eq_self fun c hc => ht c (List.mem_reverse.mp hc), List.reverse_reverse]

theorem trim_eq_self {t : List Char} (ht : ∀ ch ∈ t, ch.isWhitespace = false) : trim t = t := by
  simpa using trim_append (before := []) (after := []) (by simp) ht (by simp)

/-! ### One token -/

theorem digitsFrom_of_isDigit {cs : List Char} : ∀ {acc : Nat}, (∀ ch ∈ cs, ch.isDigit = true) →
    digitsFrom acc cs = some (Nat.ofDigitChars 10 cs acc) := by
  induction cs with
  | nil => intro acc _; rw [Nat.ofDigitChars_nil]; rfl
  | cons ch cs ih =>
    intro acc h
    rw [digitsFrom, if_pos (h ch List.mem_cons_self), ih fun c hc => h c (List.mem_cons_of_mem _ hc), Nat.ofDigitChars_cons]

theorem isDigit_of_mem_toDigits_ten {n : Nat} {ch : Char} (h : ch ∈ Nat.toDigits 10 n) : ch.isDigit = true :=
  Nat.isDigit_of_mem_toDigits (by decide) (by decide) h

theorem naturalOf_toDigits (n : Nat) : naturalOf (Nat.toDigits 10 n) = some n := by
  obtain ⟨ch, cs, h⟩ := List.exists_cons_of_ne_nil (Nat.toDigits_ne_nil (n := n) (b := 10))
  have hdigits := digitsFrom_of_isDigit (acc := 0) fun ch hch => isDigit_of_mem_toDigits_ten (n := n) hch
  rw [Nat.ofDigitChars_ten_toDigits] at hdigits
  rw [h] at hdigits ⊢
  exact hdigits

theorem integerOf_minus {cs : List Char} {n : Nat} (h : naturalOf cs = some n) : integerOf ('-' :: cs) = some (-(n : Int)) := by
  simp [integerOf, h]

theorem integerOf_of_ne_minus {ch : Char} {cs : List Char} {n : Nat} (hch : ch ≠ '-') (h : naturalOf (ch :: cs) = some n) :
    integerOf (ch :: cs) = some (n : Int) := by
  unfold integerOf
  split
  · next heq => exact absurd (List.cons.inj heq).1 hch
  · simp [h]

/-- Reading a printed Word gives the Word (spec/30_encoding.md R99). -/
theorem integerOf_printWord (v : Int) : integerOf (printWord v) = some v := by
  have hnat := naturalOf_toDigits v.natAbs
  unfold printWord
  split
  · next hv =>
    rw [integerOf_minus hnat, Int.ofNat_natAbs_of_nonpos hv.le, Int.neg_neg]
  · next hv =>
    obtain ⟨ch, cs, h⟩ := List.exists_cons_of_ne_nil (Nat.toDigits_ne_nil (n := v.natAbs) (b := 10))
    have hch : ch.isDigit = true := isDigit_of_mem_toDigits_ten (n := v.natAbs) (by rw [h]; exact List.mem_cons_self)
    rw [h] at hnat ⊢
    rw [integerOf_of_ne_minus (by rintro rfl; exact absurd hch (by decide)) hnat, Int.natAbs_of_nonneg (Int.not_lt.mp hv)]

theorem mem_printWord {v : Int} {ch : Char} (h : ch ∈ printWord v) : ch = '-' ∨ ch.isDigit = true := by
  unfold printWord at h
  split at h
  · exact (List.mem_cons.mp h).imp_right isDigit_of_mem_toDigits_ten
  · exact .inr (isDigit_of_mem_toDigits_ten h)

theorem isWhitespace_eq_false_of_isDigit {ch : Char} (h : ch.isDigit = true) : ch.isWhitespace = false := by
  have hne : ∀ c : Char, c.isDigit = false → ch ≠ c := by rintro c hc rfl; rw [h] at hc; cases hc
  simp [Char.isWhitespace, hne ' ' rfl, hne '\t' rfl, hne '\r' rfl, hne '\n' rfl]

theorem isWhitespace_of_mem_printWord {v : Int} : ∀ ch ∈ printWord v, ch.isWhitespace = false := by
  intro ch h
  rcases mem_printWord h with rfl | h
  · rfl
  · exact isWhitespace_eq_false_of_isDigit h

theorem comma_not_mem_printWord (v : Int) : ',' ∉ printWord v := by
  intro h
  rcases mem_printWord h with h | h <;> exact absurd h (by decide)

theorem parseToken_ok_iff {t : List Char} {v : Int} :
    parseToken config t = .ok v ↔ integerOf (trim t) = some v ∧ inWordRange v := by
  unfold parseToken
  cases h : integerOf (trim t) with
  | none => simp
  | some u =>
    simp only [guard_ok_iff, config_isWord_iff, Option.some.injEq]
    constructor
    · rintro ⟨hu, rfl⟩; exact ⟨rfl, hu⟩
    · rintro ⟨rfl, hu⟩; exact ⟨hu, rfl⟩

/-- Every other token is refused with the trimmed token (spec/30_encoding.md R100). -/
theorem parseToken_error {t : List Char} (h : ∀ v, integerOf (trim t) = some v → ¬ inWordRange v) :
    parseToken config t = .error (.parseError (trim t)) := by
  unfold parseToken
  cases ht : integerOf (trim t) with
  | none => rfl
  | some v => exact if_neg ((config_isWord_iff v).not.mpr (h v ht))

/-! ### The literal -/

/-- The tokens parse one by one. -/
theorem parseTokens_ok_iff {ts : List (List Char)} {ws : List Int} :
    parseTokens config ts = .ok ws ↔ List.Forall₂ (fun t v => parseToken config t = .ok v) ts ws := by
  induction ts generalizing ws with
  | nil => simp [parseTokens, eq_comm]
  | cons t ts ih =>
    simp only [parseTokens, bind_eq_ok_iff, ih, List.forall₂_cons_left_iff, pure_eq_ok, Except.ok.injEq]
    constructor
    · rintro ⟨v, hv, vs, hvs, rfl⟩; exact ⟨v, vs, hv, hvs, rfl⟩
    · rintro ⟨v, vs, hv, hvs, rfl⟩; exact ⟨v, hv, vs, hvs, rfl⟩

theorem inWordRange_of_parseTokens {ts : List (List Char)} {ws : List Int} (h : parseTokens config ts = .ok ws) :
    ∀ w ∈ ws, inWordRange w := by
  induction parseTokens_ok_iff.mp h with
  | nil => simp
  | cons hv hvs ih => exact List.forall_mem_cons.mpr ⟨(parseToken_ok_iff.mp hv).2, ih (parseTokens_ok_iff.mpr hvs)⟩

theorem printLiteral_cons_cons (before after : List Char) (v v' : Int) (vs : List Int) :
    printLiteral before after (v :: v' :: vs) =
      before ++ printWord v ++ after ++ ',' :: printLiteral before after (v' :: vs) := rfl

/-- The commas of a printed literal are those between its Words. -/
theorem splitCommas_printLiteral {before after : List Char} (hb : ',' ∉ before) (ha : ',' ∉ after) {ws : List Int}
    (hws : ws ≠ []) :
    splitCommas (printLiteral before after ws) = ws.map fun v => before ++ printWord v ++ after := by
  have htoken : ∀ v, ',' ∉ before ++ printWord v ++ after := by simp [hb, ha, comma_not_mem_printWord]
  induction ws with
  | nil => exact absurd rfl hws
  | cons v vs ih =>
    cases vs with
    | nil => exact splitCommas_of_not_mem (htoken v)
    | cons v' vs =>
      rw [printLiteral_cons_cons, splitCommas_append_comma (htoken v), ih (List.cons_ne_nil _ _)]
      rfl

theorem parseToken_printWord {before after : List Char} (hb : ∀ ch ∈ before, ch.isWhitespace = true)
    (ha : ∀ ch ∈ after, ch.isWhitespace = true) {v : Int} (hv : inWordRange v) :
    parseToken config (before ++ printWord v ++ after) = .ok v :=
  parseToken_ok_iff.mpr ⟨by rw [trim_append hb isWhitespace_of_mem_printWord ha, integerOf_printWord], hv⟩

/-- Settles O48: a printed literal splits into its printed Words, and each token parses exactly if it is a Word. -/
theorem programLiteralIsParsedAsWritten : Obligations.ProgramLiteralIsParsedAsWritten := by
  refine ⟨fun before after ws hws hw => ?_, fun text ws h => ?_, rfl, fun cs hcs => ?_, fun v hv => ?_⟩
  · have hcomma : ∀ n, ',' ∉ List.replicate n ' ' := fun n h => absurd (List.eq_of_mem_replicate h) (by decide)
    have hspace : ∀ n, ∀ ch ∈ List.replicate n ' ', ch.isWhitespace = true := fun n ch h => by
      rw [List.eq_of_mem_replicate h]; rfl
    rw [parseLiteral, splitCommas_printLiteral (hcomma before) (hcomma after) hws, parseTokens_ok_iff,
      List.forall₂_map_left_iff, List.forall₂_same]
    exact fun v hv => parseToken_printWord (hspace before) (hspace after) (hw v hv)
  · exact ⟨inWordRange_of_parseTokens h, by rw [← (parseTokens_ok_iff.mp h).length_eq, length_splitCommas]⟩
  · have htrim : trim ('+' :: cs) = '+' :: cs := trim_eq_self (List.forall_mem_cons.mpr ⟨rfl, hcs⟩)
    have hnone : integerOf ('+' :: cs) = none := rfl
    have herr := parseToken_error (t := '+' :: cs) (by rw [htrim, hnone]; simp)
    rwa [htrim] at herr
  · have htrim := trim_eq_self (isWhitespace_of_mem_printWord (v := v))
    have herr := parseToken_error (t := printWord v) (by rw [htrim, integerOf_printWord]; rintro _ ⟨⟩; exact hv)
    rwa [htrim] at herr

end Sys2Proof.Machine
end

section
/-! PROOFS. The step and its operands (spec/40_step_and_operands.md): the three addressing modes, the end test, the canonical Words
of an instruction and a host's table word as what the next step runs, and the four outcomes of a step
(spec/70_reset_and_hazards.md R247). Statements O37, O19, O18, O49 and O24. -/

namespace Sys2Proof

/-! ### The canonical Words of an instruction decode to it -/

theorem modeDigits_eq_mul (os : List Operand) : ∀ weight : Int, modeDigits weight os = weight * modeDigits 1 os := by
  induction os with
  | nil => intro weight; simp [modeDigits]
  | cons o os ih =>
    intro weight
    rw [modeDigits, modeDigits, ih (10 * weight), ih (10 * 1)]
    ring

/-- The first operand's mode is the lowest digit (spec/30_encoding.md R81). -/
theorem modeDigits_one_cons (o : Operand) (os : List Operand) : modeDigits 1 (o :: os) = o.mode + 10 * modeDigits 1 os := by
  rw [modeDigits, modeDigits_eq_mul os (10 * 1), one_mul, mul_one]

/-- The decimal digits of the mode field are the operands' modes (spec/30_encoding.md R81). -/
theorem modeDigits_one_digit (os : List Operand) :
    ∀ n (hn : n < os.length), modeDigits 1 os / 10 ^ n % 10 = os[n].mode := by
  induction os with
  | nil => intro n hn; exact absurd hn (Nat.not_lt_zero n)
  | cons o os ih =>
    intro n hn
    have hbounds := o.mode_bounds
    rw [modeDigits_one_cons]
    cases n with
    | zero =>
      rw [pow_zero, Int.ediv_one, List.getElem_cons_zero]
      omega
    | succ n =>
      have htail : (o.mode + 10 * modeDigits 1 os) / 10 = modeDigits 1 os := by omega
      rw [pow_succ', ← Int.ediv_ediv_of_nonneg (by decide), htail, List.getElem_cons_succ]
      exact ih n (by simpa using hn)

theorem modeDigits_one_nonneg (os : List Operand) : 0 ≤ modeDigits 1 os := by
  induction os with
  | nil => simp [modeDigits]
  | cons o os ih =>
    have hbounds := o.mode_bounds
    rw [modeDigits_one_cons]
    omega

/-- The canonical word is its opcode and, above its two digits, its mode field (spec/30_encoding.md R96). -/
theorem Instr.word_eq (i : Instr) : i.word = i.opcode.code + 100 * modeDigits 1 i.operands := by
  rw [Instr.word, modeDigits_eq_mul]

theorem Instr.word_nonneg (i : Instr) : 0 ≤ i.word := by
  have hcode := i.opcode.code_bounds
  have hmodes := modeDigits_one_nonneg i.operands
  rw [Instr.word_eq]
  omega

theorem opcodeDigits_word (i : Instr) : opcodeDigits i.word = i.opcode.code := by
  have hcode := i.opcode.code_bounds
  rw [opcodeDigits_eq_emod i.word_nonneg, Instr.word_eq]
  omega

theorem modeDigit_word (i : Instr) (n : Nat) (hn : n < i.operands.length) : modeDigit i.word (n + 1) = i.operands[n].mode := by
  have hcode := i.opcode.code_bounds
  have hfield : i.word / 100 = modeDigits 1 i.operands := by rw [Instr.word_eq]; omega
  have hpow : (10 : Int) ^ (n + 1 + 1) = 100 * 10 ^ n := by ring
  rw [modeDigit_eq_ediv_emod i.word_nonneg (by omega), hpow, ← Int.ediv_ediv_of_nonneg (by decide), hfield]
  exact modeDigits_one_digit i.operands n hn

/-- Decoding inverts encoding, whatever Words follow (spec/30_encoding.md R93, R96). -/
theorem decode_encode_append (i : Instr) (rest : List Int) : decode (encode i ++ rest) = .ok (i, rest) :=
  decode_of_words (opcodeDigits_word i) (modeDigit_word i)

theorem decodeTableWord_eq_some_iff {nbits w : Nat} {i : Instr} :
    decodeTableWord nbits w = some i ↔ ∃ rest, decode (tableWords nbits w) = .ok (i, rest) := by
  unfold decodeTableWord
  cases h : decode (tableWords nbits w) with
  | error e => simp
  | ok p => simp [Prod.ext_iff, eq_comm]

theorem length_tableWords (nbits w : Nat) : (tableWords nbits w).length = 4 := rfl

end Sys2Proof

namespace Sys2Proof.Machine

/-! ### The addressing modes -/

theorem not_inMemory_of_outside {a : Int} (h : a < 0 ∨ 2048 ≤ a) : ¬ inMemory a := by
  rintro ⟨h0, h1⟩
  omega

/-- Settles O37: reading gives the value an operand has as a source, and the destination is the address it names; both fail at an
effective address that is not valid. -/
theorem addressingModesResolveAsTheTableSays : Obligations.AddressingModesResolveAsTheTableSays := by
  intro s p
  have hsource {o : Operand} {x : Int} (h : AddressOutside s o x) : readOperand config s o = .error (.outOfBounds x) :=
    readOperand_error_iff.mpr ⟨x, h, rfl⟩
  have hdest {o : Operand} {x : Int} (h : AddressOutside s o x) : destAddress config s o = .error (.outOfBounds x) :=
    destAddress_error_iff.mpr (.inr ⟨x, h, rfl⟩)
  refine ⟨?literal, fun h => ?position, fun h => ?positionOutside, fun h => ?relative, fun h => ?relativeOutside⟩
  case literal => exact ⟨readOperand_ok_iff.mpr rfl, destAddress_error_iff.mpr (.inl ⟨⟨p, rfl⟩, rfl⟩)⟩
  case position | relative => exact ⟨readOperand_ok_iff.mpr ⟨h, rfl⟩, destAddress_ok_iff.mpr ⟨h, rfl⟩⟩
  case positionOutside =>
    have hout : AddressOutside s (.position p) p := ⟨rfl, not_inMemory_of_outside h⟩
    exact ⟨hsource hout, hdest hout⟩
  case relativeOutside =>
    have hout : AddressOutside s (.relative p) (s.rb + p) := ⟨rfl, not_inMemory_of_outside h⟩
    exact ⟨hsource hout, hdest hout⟩

/-! ### What the next step runs -/

/-- Settles O19: the end test comes before the fetch. -/
theorem endTestHaltsPastMemory : Obligations.EndTestHaltsPastMemory := fun _ hs hip => step_of_offEnd hs hip

/-- Settles O18: in both cases i is the current instruction, in the second because its canonical Words decode to it. -/
theorem stepRunsTheDecodedInstruction : Obligations.StepRunsTheDecodedInstruction := by
  refine ⟨fun s i rest hs hip hd => ?_, fun s i hs hip hr => ?_⟩
  · exact step_of_current (State.current_eq_some_iff.mpr ⟨hs, hip, rest, hd⟩)
  · have hd : decode (encode i) = .ok (i, []) := by simpa using decode_encode_append i []
    exact step_of_current (current_of_words hs hd hip hr)

/-- The place of a table word has room for the longest instruction (log entry 8). -/
theorem fetchPlace_add_four_le (s : State) : fetchPlace config s + 4 ≤ 2048 := by
  unfold fetchPlace
  split
  · next hfits => exact hfits
  · decide

theorem State.awake_status (s : State) : s.awake.status = .running := by
  unfold State.awake
  split
  · next hs => exact hs
  · rfl
  · rfl

theorem State.withFetchWord_status (s : State) (nbits w : Nat) : (s.withFetchWord nbits w).status = .running :=
  s.awake_status

theorem State.withFetchWord_ip (s : State) (nbits w : Nat) : (s.withFetchWord nbits w).ip = fetchPlace config s := rfl

/-- The Words of a table word stand at the new IP. -/
theorem State.withFetchWord_read (s : State) (nbits w : Nat) {n : Nat} (hn : n < (tableWords nbits w).length) :
    (s.withFetchWord nbits w).mem.read ((s.withFetchWord nbits w).ip + n) = (tableWords nbits w).getD n 0 := by
  have hload : (s.withFetchWord nbits w).mem = s.mem.load (fetchPlace config s) (tableWords nbits w) := rfl
  rw [State.withFetchWord_ip, hload, Memory.read_load, if_pos ⟨by omega, by omega⟩, Nat.add_sub_cancel_left]

/-- Settles O49: the placed Words stand at IP inside Memory in a Running machine, so what they decode to is the current
instruction. -/
theorem placedTableWordIsRunNext : Obligations.PlacedTableWordIsRunNext := by
  intro s nbits w i h
  obtain ⟨rest, hd⟩ := decodeTableWord_eq_some_iff.mp h
  have hroom : (s.withFetchWord nbits w).ip + (tableWords nbits w).length ≤ 2048 := by
    rw [State.withFetchWord_ip, length_tableWords]
    exact fetchPlace_add_four_le s
  exact step_of_current
    (current_of_words (s.withFetchWord_status nbits w) hd hroom fun n hn => s.withFetchWord_read nbits w hn)

/-! ### The outcomes of a step -/

/-- Every step of a Running machine is enabled (spec/60_exceptions.md R206). -/
theorem step_next_of_running {s : State} (hs : s.status = .running) : ∃ t, step s = .next t := by
  by_cases hip : 2048 ≤ s.ip
  · exact ⟨_, step_of_offEnd hs hip⟩
  · have hlt : s.ip < 2048 := Nat.lt_of_not_le hip
    cases hd : decode (s.fetchWords config) with
    | error e => exact ⟨_, step_of_decode_error hs hlt hd⟩
    | ok p =>
      rw [step_of_current (State.current_eq_some_iff.mpr ⟨hs, hlt, p.2, hd⟩)]
      exact exec_next p.1 s

section
variable {i : Instr} {s t : State} (h : Effect i s t)
include h

/-- An instruction writes at most one of the Word at its destination, RB and OUTLOG (spec/20_memory.md R66). -/
theorem Effect.writes_at_most_one :
    (∃ d k v, i.destination = some d ∧ DestinationAt s d k ∧ t.mem = s.mem.write k v ∧ t.rb = s.rb ∧ t.outlog = s.outlog) ∨
    (t.mem = s.mem ∧ t.outlog = s.outlog) ∨
    (t.mem = s.mem ∧ t.rb = s.rb ∧ ∃ v, t.outlog = s.outlog ++ [v]) := by
  cases h with
  | store d k r hi hid hd => exact .inl ⟨d, k, r, hid, hd, rfl, rfl, rfl⟩
  | input d v k hi hv hd => exact .inl ⟨d, k, v, by rw [hi]; rfl, hd, rfl, rfl, rfl⟩
  | output a v hi hv => exact .inr (.inr ⟨rfl, rfl, v, rfl⟩)
  | _ => exact .inr (.inl ⟨rfl, rfl⟩)

/-- Only a ReadInput takes from the queue, and it takes the front (spec/44_io.md R170). -/
theorem Effect.inq_eq_or_takes_front : t.inq = s.inq ∨ (∃ d, i = .readInput d) ∧ ∃ v, s.inq = v :: t.inq := by
  cases h with
  | input d v k hi hv hd => exact .inr ⟨⟨d, hi⟩, v, hv⟩
  | _ => exact .inl rfl

end

/-- Settles O24: the end test is the implicit halt, a decode error faults, and the current instruction is a Halt, faults, or
completes with what its effect writes. -/
theorem runningStepHasOneOfFourOutcomes : Obligations.RunningStepHasOneOfFourOutcomes := by
  intro s hs
  obtain ⟨t, ht⟩ := step_next_of_running hs
  obtain ⟨-, hstep⟩ := step_effect ht
  refine ⟨t, ht, ?_⟩
  cases hstep with
  | offEnd hip hc => exact .inr (.inr (.inl ⟨hip, rfl⟩))
  | decodeFault k hip hc => exact .inr (.inr (.inr ⟨k, rfl⟩))
  | execute i t hip hc he =>
    by_cases hi : i = .halt
    · subst hi
      exact .inr (.inl ⟨hc, exec_halt_iff.mp he⟩)
    · have heff := exec_effect he
      rcases heff.keeps_status_or_faults hi with ⟨hst, hf, hh⟩ | hfault
      · refine .inl ⟨hst.trans hs, hh, hf, ?_, ?_⟩
        · refine heff.writes_at_most_one.imp_left ?_
          rintro ⟨d, k, v, hid, hd, hwrites⟩
          exact ⟨i, d, k, v, hc, hid, destAddress_ok_iff.mpr hd, hwrites⟩
        · refine heff.inq_eq_or_takes_front.imp_right ?_
          rintro ⟨⟨d, rfl⟩, hfront⟩
          exact ⟨⟨d, hc⟩, hfront⟩
      · exact .inr (.inr (.inr hfault))

end Sys2Proof.Machine
end

section
/-! PROOFS. Arithmetic (spec/41_arithmetic.md): the four-Word instructions from what their operands are, Add and Multiply with the
overflow test, and the machine with wider Words, which differs only where a result overflows. Statements O6, O7, O40 and O41. -/

namespace Sys2Proof.Machine

/-! ### The four-Word instructions -/

/-- The canonical Words of an instruction with three operands, its instruction word written out (spec/30_encoding.md R81, R96). -/
theorem decode_three_operands {i : Instr} {a b d : Operand} (hi : i.operands = [a, b, d]) (rest : List Int) :
    decode ([i.opcode.code + 100 * a.mode + 1000 * b.mode + 10000 * d.mode, a.payload, b.payload, d.payload] ++ rest) =
      .ok (i, rest) := by
  have hword : i.word = i.opcode.code + 100 * a.mode + 1000 * b.mode + 10000 * d.mode := by
    simp only [Instr.word, hi, modeDigits]
    ring
  have hencode : encode i = [i.word, a.payload, b.payload, d.payload] := by rw [encode, hi]; rfl
  rw [← hword, ← hencode]
  exact decode_encode_append i rest

section
variable {f : Int → Int → Except Fault Int} {a b d : Operand} {s : State}

theorem storeResultAt_of_outside_first {x : Int} (ha : AddressOutside s a x) :
    storeResultAt config f a b d s = .next (takeFault (.outOfBounds x) s) := by
  rw [storeResultAt, readOperand_error_iff.mpr ⟨x, ha, rfl⟩]
  rfl

theorem storeResultAt_of_outside_second {va x : Int} (ha : SourceValue s a va) (hb : AddressOutside s b x) :
    storeResultAt config f a b d s = .next (takeFault (.outOfBounds x) s) := by
  rw [storeResultAt, readOperand_ok_iff.mpr ha, bind_ok, readOperand_error_iff.mpr ⟨x, hb, rfl⟩]
  rfl

variable {va vb : Int} (ha : SourceValue s a va) (hb : SourceValue s b vb)
include ha hb

/-- With both sources read, the result and then the destination decide (spec/41_arithmetic.md R140). -/
theorem storeResultAt_of_sources :
    storeResultAt config f a b d s =
      commit s (do let r ← f va vb; let da ← destAddress config s d; return (s.writeMem da r).advance 4) := by
  rw [storeResultAt, readOperand_ok_iff.mpr ha, bind_ok, readOperand_ok_iff.mpr hb, bind_ok]

theorem storeResultAt_of_result_error {k : Fault} (hr : f va vb = .error k) :
    storeResultAt config f a b d s = .next (takeFault k s) := by
  rw [storeResultAt_of_sources ha hb, hr]
  rfl

theorem storeResultAt_of_dest_error {r : Int} {k : Fault} (hr : f va vb = .ok r) (hd : destAddress config s d = .error k) :
    storeResultAt config f a b d s = .next (takeFault k s) := by
  rw [storeResultAt_of_sources ha hb, hr, bind_ok, hd]
  rfl

theorem storeResultAt_of_dest {r : Int} {k : Nat} (hr : f va vb = .ok r) (hd : DestinationAt s d k) :
    storeResultAt config f a b d s = .next { s with mem := s.mem.write k r, ip := s.ip + 4 } := by
  rw [storeResultAt_of_sources ha hb, hr, bind_ok, destAddress_ok_iff.mpr hd]
  rfl

end

/-- The result of a four-Word instruction as an execute phase computes it: a value, or ArithmeticOverflow where there is none. -/
def resultOf (value : Option Int) : Except Fault Int := value.elim (.error .arithmeticOverflow) .ok

theorem raises_of_eq_takeFault {s : State} {r : Answer} {k : Fault} (h : r = .next (takeFault k s)) : Raises r k :=
  h ▸ raises_takeFault s k

/-- An instruction that executes as a four-Word instruction stores the result, its faults in the order of
spec/41_arithmetic.md R140. -/
theorem storesResult_of_exec_eq {i : Instr} {a b d : Operand} {s : State} {f : Int → Int → Except Fault Int}
    {value : Int → Int → Option Int} (hexec : exec i s = storeResultAt config f a b d s)
    (hf : ∀ x y, f x y = resultOf (value x y)) : StoresResult i a b d s value := by
  unfold StoresResult
  rw [hexec]
  refine ⟨fun x hx => ?_, fun va x ha hx => ?_, fun va vb ha hb => ⟨fun hnone => ?_, fun r hr => ?_⟩⟩
  · exact raises_of_eq_takeFault (storeResultAt_of_outside_first hx)
  · exact raises_of_eq_takeFault (storeResultAt_of_outside_second ha hx)
  · exact raises_of_eq_takeFault (storeResultAt_of_result_error ha hb ((hf va vb).trans (congrArg resultOf hnone)))
  · have hr' : f va vb = .ok r := (hf va vb).trans (congrArg resultOf hr)
    have hraises {k : Fault} (hd : destAddress config s d = .error k) : Raises (storeResultAt config f a b d s) k :=
      raises_of_eq_takeFault (storeResultAt_of_dest_error ha hb hr' hd)
    refine ⟨fun hd => ?_, fun x hx => ?_, fun k hd => storeResultAt_of_dest ha hb hr' hd⟩
    · exact hraises (destAddress_error_iff.mpr (.inl ⟨hd, rfl⟩))
    · exact hraises (destAddress_error_iff.mpr (.inr ⟨x, hx, rfl⟩))

/-! ### Add and Multiply -/

/-- The overflow test with the range claims are written with (spec/60_exceptions.md R194). -/
theorem checkWord_eq_resultOf (v : Int) : checkWord config v = resultOf (if inWordRange v then some v else none) := by
  by_cases hv : inWordRange v
  · rw [if_pos hv]
    exact checkWord_ok_iff.mpr ⟨hv, rfl⟩
  · rw [if_neg hv]
    exact checkWord_error_iff.mpr ⟨hv, rfl⟩

/-- Settles O6: Add is a four-Word instruction whose result is the checked sum. -/
theorem addStoresTheCheckedSum : Obligations.AddStoresTheCheckedSum := fun _ _ _ _ =>
  ⟨decode_three_operands (i := .add _ _ _) rfl, storesResult_of_exec_eq rfl fun x y => checkWord_eq_resultOf (x + y)⟩

/-- Settles O7: Multiply is a four-Word instruction whose result is the checked product. -/
theorem multiplyStoresTheCheckedProduct : Obligations.MultiplyStoresTheCheckedProduct := fun _ _ _ _ =>
  ⟨decode_three_operands (i := .multiply _ _ _) rfl, storesResult_of_exec_eq rfl fun x y => checkWord_eq_resultOf (x * y)⟩

/-- The product of two values of 32 bits is at most 2^62 in size. -/
theorem inWordRange_mul_of_32_bits {x y : Int} (hx : -2147483648 ≤ x) (hx' : x ≤ 2147483647) (hy : -2147483648 ≤ y)
    (hy' : y ≤ 2147483647) : inWordRange (x * y) := by
  have hxabs : |x| ≤ 2147483648 := abs_le.mpr ⟨hx, by omega⟩
  have hyabs : |y| ≤ 2147483648 := abs_le.mpr ⟨hy, by omega⟩
  have habs : |x * y| ≤ 2147483648 * 2147483648 := by
    rw [abs_mul]
    exact mul_le_mul hxabs hyabs (abs_nonneg y) (by decide)
  obtain ⟨hlow, hhigh⟩ := abs_le.mp habs
  exact ⟨by omega, by omega⟩

/-- Settles O40: such a product is a Word, so the Multiply of two Literals stores it. -/
theorem productsOfThirtyTwoBitValuesNeverOverflow : Obligations.ProductsOfThirtyTwoBitValuesNeverOverflow := by
  intro s x y d k hx hx' hy hy' hd
  have hword : inWordRange (x * y) := inWordRange_mul_of_32_bits hx hx' hy hy'
  obtain ⟨-, -, -, hstores⟩ := multiplyStoresTheCheckedProduct (.literal x) (.literal y) d s
  obtain ⟨-, hstored⟩ := hstores x y rfl rfl
  obtain ⟨-, -, hcompletes⟩ := hstored (x * y) (if_pos hword)
  exact hcompletes k hd

/-! ### The same capacity -/

section
variable {c : Config} (hcap : c.cap = 2048)
include hcap

theorem checkAddress_of_cap : checkAddress c = checkAddress config := by
  funext a
  exact if_congr (by rw [validAddress, validAddress, hcap, config_cap]) rfl rfl

theorem readOperand_of_cap : readOperand c = readOperand config := by
  funext s o
  cases o <;> simp only [readOperand, memRead, checkAddress_of_cap hcap]

theorem destAddress_of_cap : destAddress c = destAddress config := by
  funext s o
  cases o <;> simp only [destAddress, checkAddress_of_cap hcap]

theorem wordsFrom_of_cap (s : State) (n : Nat) : ∀ a, s.wordsFrom c a n = s.wordsFrom config a n := by
  induction n with
  | zero => exact fun a => rfl
  | succ n ih => intro a; exact if_congr (by rw [hcap, config_cap]) (congrArg _ (ih (a + 1))) rfl

theorem fetchWords_of_cap (s : State) : s.fetchWords c = s.fetchWords config := wordsFrom_of_cap hcap s 4 s.ip

end

/-! ### Wider Words -/

/-- The second computation gives what the first gives, unless the first overflows. -/
def OverflowsOrSame {α : Type} (x y : Except Fault α) : Prop := x = .error .arithmeticOverflow ∨ y = x

theorem OverflowsOrSame.bind {α β : Type} {x y : Except Fault α} (h : OverflowsOrSame x y) {f g : α → Except Fault β}
    (hfg : ∀ v, OverflowsOrSame (f v) (g v)) : OverflowsOrSame (x >>= f) (y >>= g) := by
  rcases h with rfl | rfl
  · exact .inl rfl
  · cases y with
    | error e => exact .inr rfl
    | ok v => exact hfg v

/-- The second answer is the first, unless the first takes ArithmeticOverflow in the state s. -/
def AnswersSameUnlessOverflow (s : State) (r r' : Answer) : Prop := r = .next (takeFault .arithmeticOverflow s) ∨ r' = r

theorem OverflowsOrSame.commit {x y : Except Fault State} (h : OverflowsOrSame x y) (s : State) :
    AnswersSameUnlessOverflow s (commit s x) (commit s y) := by
  rcases h with rfl | rfl
  · exact .inl rfl
  · exact .inr rfl

section
variable {c : Config} (hbits : 64 ≤ c.wordBits) (hcap : c.cap = 2048)

include hbits in
/-- A result that is a Word is a wider Word (spec/41_arithmetic.md R143 f). -/
theorem checkWord_wider (v : Int) : OverflowsOrSame (checkWord config v) (checkWord c v) := by
  by_cases hv : config.isWord v
  · exact .inr ((if_pos (Config.isWord_of_wider hbits hv)).trans (if_pos hv).symm)
  · exact .inl (if_neg hv)

include hcap in
theorem storeResultAt_wider {f g : Int → Int → Except Fault Int} (hfg : ∀ x y, OverflowsOrSame (f x y) (g x y))
    (a b d : Operand) (s : State) :
    AnswersSameUnlessOverflow s (storeResultAt config f a b d s) (storeResultAt c g a b d s) := by
  rw [storeResultAt, storeResultAt, readOperand_of_cap hcap, destAddress_of_cap hcap]
  exact OverflowsOrSame.commit (.bind (.inr rfl) fun va => .bind (.inr rfl) fun vb => (hfg va vb).bind fun r => .inr rfl) s

include hcap in
theorem jumpAt_wider (fires : Int → Bool) (t g : Operand) (s : State) : jumpAt c fires t g s = jumpAt config fires t g s := by
  rw [jumpAt, readOperand_of_cap hcap, jumpAt]

include hbits hcap

/-- Only Add, Multiply and AdjustRelativeBase test for an overflow; the others read no width. -/
theorem execAt_wider (i : Instr) (s : State) : AnswersSameUnlessOverflow s (exec i s) (execAt c i s) := by
  cases i
  case add a b d => exact storeResultAt_wider hcap (fun x y => checkWord_wider hbits (x + y)) a b d s
  case multiply a b d => exact storeResultAt_wider hcap (fun x y => checkWord_wider hbits (x * y)) a b d s
  case lessThan a b d | equals a b d => exact storeResultAt_wider hcap (fun _ _ => .inr rfl) a b d s
  case jumpIfTrue t g | jumpIfFalse t g => exact .inr (jumpAt_wider hcap _ t g s)
  case readInput d =>
    refine .inr ?_
    rw [execAt, readInputAt, destAddress_of_cap hcap]
    rfl
  case saveOutput a =>
    refine .inr ?_
    rw [execAt, saveOutputAt, readOperand_of_cap hcap]
    rfl
  case adjustRelativeBase a =>
    rw [execAt, adjustRelativeBaseAt, readOperand_of_cap hcap]
    exact OverflowsOrSame.commit (.bind (.inr rfl) fun va => (checkWord_wider hbits (s.rb + va)).bind fun nb => .inr rfl) s
  case halt => exact .inr rfl

/-- The end test, the fetch and the decode read no width, only the capacity. -/
theorem stepAt_wider (s : State) : AnswersSameUnlessOverflow s (step s) (stepAt c s) := by
  by_cases hs : s.status = .running
  · rw [step, stepAt, stepWith_running hs, stepWith_running hs, runningStepAt, runningStepAt, hcap, config_cap,
      fetchWords_of_cap hcap]
    by_cases hip : 2048 ≤ s.ip
    · rw [if_pos hip, if_pos hip]
      exact .inr rfl
    · rw [if_neg hip, if_neg hip]
      cases decode (s.fetchWords config) with
      | error e => exact .inr rfl
      | ok p => exact execAt_wider hbits hcap p.1 s
  · rw [step, stepAt, stepWith_terminal hs, stepWith_terminal hs]
    exact .inr rfl

end

/-- A run that has ended makes no step (spec/60_exceptions.md R204). -/
theorem run_of_ended {s : State} (h : s.ended) (k : Nat) : run k s = s := by
  cases k with
  | zero => rfl
  | succ k => rw [run, runWith, step, stepWith_terminal h]

/-- Settles O41, by induction on the number of steps: a step that overflows ends the run with that FAULT, and every other step is
the same with wider Words. -/
theorem widerWordsRunAlike : Obligations.WiderWordsRunAlike := by
  intro c hbits hcap k
  induction k with
  | zero => exact fun s _ => rfl
  | succ k ih =>
    intro s hfault
    rcases stepAt_wider hbits hcap s with hover | hsame
    · have hrun : run (k + 1) s = takeFault .arithmeticOverflow s := by
        rw [run, runWith, hover]
        exact run_of_ended (by simp) k
      exact absurd (congrArg State.fault hrun) hfault
    · rw [run, runWith] at hfault ⊢
      rw [hsame, runWith]
      cases hstep : step s with
      | next t =>
        rw [hstep] at hfault
        exact ih t hfault
      | fault r => rfl
      | refused r => rfl

end Sys2Proof.Machine
end

section
/-! PROOFS. Comparisons (spec/42_compare.md): LessThan and Equals, four-Word instructions whose result is 1 or 0 and so never
overflows. Statements O8 and O9. -/

namespace Sys2Proof.Machine

/-- The result of LessThan with the comparison claims are written with (spec/42_compare.md R150). -/
theorem lessThanWord_eq_ite (x y : Int) : lessThanWord x y = if x < y then 1 else 0 := by
  simp only [lessThanWord, truthWord, decide_eq_true_eq]

/-- The result of Equals with the comparison claims are written with (spec/42_compare.md R151). -/
theorem equalsWord_eq_ite (x y : Int) : equalsWord x y = if x = y then 1 else 0 := by
  simp only [equalsWord, truthWord, decide_eq_true_eq]

/-- Settles O8: LessThan is a four-Word instruction whose result is the signed comparison, so it has no overflow. -/
theorem lessThanStoresTheSignedComparison : Obligations.LessThanStoresTheSignedComparison := fun _ _ _ _ =>
  ⟨decode_three_operands (i := .lessThan _ _ _) rfl,
    storesResult_of_exec_eq rfl fun x y => congrArg Except.ok (lessThanWord_eq_ite x y)⟩

/-- Settles O9: Equals is a four-Word instruction whose result is the equality, so it has no overflow. -/
theorem equalsStoresTheEquality : Obligations.EqualsStoresTheEquality := fun _ _ _ _ =>
  ⟨decode_three_operands (i := .equals _ _ _) rfl,
    storesResult_of_exec_eq rfl fun x y => congrArg Except.ok (equalsWord_eq_ite x y)⟩

end Sys2Proof.Machine
end

section
/-! PROOFS. Jumps (spec/43_jumps.md): the execute phase of a jump from what its operands are, and the two tests. Statements O10 and
O11. -/

namespace Sys2Proof.Machine

/-- The canonical Words of an instruction with two operands, its instruction word written out (spec/30_encoding.md R81, R96). -/
theorem decode_two_operands {i : Instr} {a b : Operand} (hi : i.operands = [a, b]) (rest : List Int) :
    decode ([i.opcode.code + 100 * a.mode + 1000 * b.mode, a.payload, b.payload] ++ rest) = .ok (i, rest) := by
  have hword : i.word = i.opcode.code + 100 * a.mode + 1000 * b.mode := by
    simp only [Instr.word, hi, modeDigits]
    ring
  have hencode : encode i = [i.word, a.payload, b.payload] := by rw [encode, hi]; rfl
  rw [← hword, ← hencode]
  exact decode_encode_append i rest

section
variable {test : Int → Bool} {o g : Operand} {s : State}

theorem jumpAt_of_outside_test {x : Int} (ho : AddressOutside s o x) :
    jumpAt config test o g s = .next (takeFault (.outOfBounds x) s) := by
  rw [jumpAt, readOperand_error_iff.mpr ⟨x, ho, rfl⟩]
  rfl

/-- The target is read before the decision, so its fault does not depend on the test (spec/43_jumps.md R163). -/
theorem jumpAt_of_outside_target {vt x : Int} (ho : SourceValue s o vt) (hg : AddressOutside s g x) :
    jumpAt config test o g s = .next (takeFault (.outOfBounds x) s) := by
  rw [jumpAt, readOperand_ok_iff.mpr ho, bind_ok, readOperand_error_iff.mpr ⟨x, hg, rfl⟩]
  rfl

variable {vt vg : Int} (ho : SourceValue s o vt) (hg : SourceValue s g vg)
include ho hg

/-- With both operands read, a jump that fires goes to its target, if that is one (spec/43_jumps.md R162). -/
theorem jumpAt_of_fires (hfires : test vt = true) :
    jumpAt config test o g s = commit s (do let target ← jumpTarget vg; return s.setIp target) := by
  rw [jumpAt, readOperand_ok_iff.mpr ho, bind_ok, readOperand_ok_iff.mpr hg, bind_ok, if_pos hfires]

theorem jumpAt_of_fires_neg (hfires : test vt = true) (hneg : vg < 0) :
    jumpAt config test o g s = .next (takeFault (.outOfBounds vg) s) := by
  rw [jumpAt_of_fires ho hg hfires, jumpTarget_error_iff.mpr ⟨hneg, rfl⟩]
  rfl

theorem jumpAt_of_fires_nonneg (hfires : test vt = true) (hpos : 0 ≤ vg) :
    jumpAt config test o g s = .next { s with ip := vg.toNat } := by
  rw [jumpAt_of_fires ho hg hfires, jumpTarget_ok_iff.mpr ⟨hpos, rfl⟩]
  rfl

/-- A jump that does not fire makes no test of its target (spec/43_jumps.md R162). -/
theorem jumpAt_of_not_fires (hstays : test vt = false) :
    jumpAt config test o g s = .next { s with ip := s.ip + 3 } := by
  rw [jumpAt, readOperand_ok_iff.mpr ho, bind_ok, readOperand_ok_iff.mpr hg, bind_ok, if_neg (Bool.eq_false_iff.mp hstays)]
  rfl

end

/-- Executing i in s reads the test o and then the target g, jumps on the test values of `fires` and advances on those of `stays`:
the clauses that the statements about the two jumps share (spec/43_jumps.md R160 to R163). -/
def JumpsOn (fires stays : Int → Prop) (i : Instr) (o g : Operand) (s : State) : Prop :=
  (∀ x, AddressOutside s o x → Raises (exec i s) (.outOfBounds x)) ∧
  (∀ vt x, SourceValue s o vt → AddressOutside s g x → Raises (exec i s) (.outOfBounds x)) ∧
  (∀ vt vg, SourceValue s o vt → SourceValue s g vg →
    (fires vt → vg < 0 → Raises (exec i s) (.outOfBounds vg)) ∧
    (fires vt → 0 ≤ vg → exec i s = .next { s with ip := vg.toNat }) ∧
    (stays vt → exec i s = .next { s with ip := s.ip + 3 }))

/-- An instruction that executes as a jump jumps on the values that pass its test and advances on the others. -/
theorem jumpsOn_of_exec_eq {fires stays : Int → Prop} {i : Instr} {o g : Operand} {s : State} {test : Int → Bool}
    (hexec : exec i s = jumpAt config test o g s) (hfires : ∀ v, fires v → test v = true)
    (hstays : ∀ v, stays v → test v = false) : JumpsOn fires stays i o g s := by
  unfold JumpsOn
  rw [hexec]
  refine ⟨fun x hx => ?_, fun vt x ho hx => ?_, fun vt vg ho hg => ⟨fun hf hneg => ?_, fun hf hpos => ?_, fun hs => ?_⟩⟩
  · exact raises_of_eq_takeFault (jumpAt_of_outside_test hx)
  · exact raises_of_eq_takeFault (jumpAt_of_outside_target ho hx)
  · exact raises_of_eq_takeFault (jumpAt_of_fires_neg ho hg (hfires vt hf) hneg)
  · exact jumpAt_of_fires_nonneg ho hg (hfires vt hf) hpos
  · exact jumpAt_of_not_fires ho hg (hstays vt hs)

theorem isNonZero_eq_true {v : Int} (h : v ≠ 0) : isNonZero v = true := decide_eq_true h

theorem isNonZero_eq_false {v : Int} (h : v = 0) : isNonZero v = false := decide_eq_false (not_not_intro h)

/-- Settles O10: JumpIfTrue is a jump whose test is passed by the values other than 0. -/
theorem jumpIfTrueJumpsOnNonZero : Obligations.JumpIfTrueJumpsOnNonZero := fun o g _ =>
  ⟨decode_two_operands (i := .jumpIfTrue o g) rfl,
    jumpsOn_of_exec_eq (fires := (· ≠ 0)) (stays := (· = 0)) rfl (fun _ => isNonZero_eq_true) fun _ => isNonZero_eq_false⟩

/-- Settles O11: JumpIfFalse is a jump whose test is passed by 0 only. -/
theorem jumpIfFalseJumpsOnZero : Obligations.JumpIfFalseJumpsOnZero := fun o g _ =>
  ⟨decode_two_operands (i := .jumpIfFalse o g) rfl,
    jumpsOn_of_exec_eq (fires := (· = 0)) (stays := (· ≠ 0)) rfl (fun _ h => congrArg not (isNonZero_eq_false h))
      fun _ h => congrArg not (isNonZero_eq_true h)⟩

end Sys2Proof.Machine
end

section
/-! PROOFS. Input and output (spec/44_io.md): the execute phases of ReadInput and SaveOutput, what the events of a run account for
(R172, R173; spec/45_relbase_halt.md R182), and Words at the back of INQ, which only the fault of an empty queue can see. Statements
O12, O13, O42 and O44. -/

namespace Sys2Proof.Machine

/-! ### ReadInput and SaveOutput -/

/-- The canonical Words of an instruction with one operand, its instruction word written out (spec/30_encoding.md R81, R96). -/
theorem decode_one_operand {i : Instr} {a : Operand} (hi : i.operands = [a]) (rest : List Int) :
    decode ([i.opcode.code + 100 * a.mode, a.payload] ++ rest) = .ok (i, rest) := by
  have hword : i.word = i.opcode.code + 100 * a.mode := by simp only [Instr.word, hi, modeDigits, add_zero]
  have hencode : encode i = [i.word, a.payload] := by rw [encode, hi]; rfl
  rw [← hword, ← hencode]
  exact decode_encode_append i rest

section
variable {o : Operand} {s : State} {v : Int}

/-- The empty queue is tested before the destination (spec/44_io.md R170). -/
theorem readInputAt_of_empty (h : s.inq = []) : readInputAt config o s = .next (takeFault .inputExhausted s) := by
  rw [readInputAt, frontInput_error_iff.mpr ⟨h, rfl⟩]
  rfl

theorem frontInput_of_cons {vs : List Int} (h : s.inq = v :: vs) : frontInput s = .ok v :=
  frontInput_ok_iff.mpr (by rw [h, List.tail_cons])

theorem readInputAt_of_dest_error {vs : List Int} {k : Fault} (h : s.inq = v :: vs) (hd : destAddress config s o = .error k) :
    readInputAt config o s = .next (takeFault k s) := by
  rw [readInputAt, frontInput_of_cons h, bind_ok, hd]
  rfl

theorem readInputAt_of_dest {vs : List Int} {k : Nat} (h : s.inq = v :: vs) (hd : DestinationAt s o k) :
    readInputAt config o s = .next { s with inq := vs, mem := s.mem.write k v, ip := s.ip + 2 } := by
  have hpop : s.popInput = { s with inq := vs } := by rw [State.popInput, h, List.tail_cons]
  rw [readInputAt, frontInput_of_cons h, bind_ok, destAddress_ok_iff.mpr hd, hpop]
  rfl

theorem saveOutputAt_of_outside {x : Int} (h : AddressOutside s o x) :
    saveOutputAt config o s = .next (takeFault (.outOfBounds x) s) := by
  rw [saveOutputAt, readOperand_error_iff.mpr ⟨x, h, rfl⟩]
  rfl

theorem saveOutputAt_of_source (h : SourceValue s o v) :
    saveOutputAt config o s = .next { s with outlog := s.outlog ++ [v], ip := s.ip + 2 } := by
  rw [saveOutputAt, readOperand_ok_iff.mpr h]
  rfl

end

/-- Settles O12: ReadInput tests the queue, then its destination, and every fault leaves the queue as it is. -/
theorem readInputMovesTheFrontToMemory : Obligations.ReadInputMovesTheFrontToMemory := by
  intro d s
  refine ⟨decode_one_operand (i := .readInput d) rfl, readInputAt_of_empty, fun v vs hq => ⟨fun hd => ?_, fun x hx => ?_, ?_⟩⟩
  · exact readInputAt_of_dest_error hq (destAddress_error_iff.mpr (.inl ⟨hd, rfl⟩))
  · exact readInputAt_of_dest_error hq (destAddress_error_iff.mpr (.inr ⟨x, hx, rfl⟩))
  · exact fun k hd => readInputAt_of_dest hq hd

/-- Settles O13: OUT is the last element of the log, which is the value just appended. -/
theorem saveOutputAppendsToTheLog : Obligations.SaveOutputAppendsToTheLog := by
  intro a s
  refine ⟨decode_one_operand (i := .saveOutput a) rfl, fun x hx => ?_, fun va ha => ?_⟩
  · exact raises_of_eq_takeFault (saveOutputAt_of_outside hx)
  · exact ⟨_, saveOutputAt_of_source ha, rfl, List.getLast?_concat⟩

/-! ### What the events of a run account for -/

section
variable (h h' : List Event)

theorem deliveredWords_append : deliveredWords (h ++ h') = deliveredWords h ++ deliveredWords h' := List.filterMap_append

theorem outputWords_append : outputWords (h ++ h') = outputWords h ++ outputWords h' := List.filterMap_append

theorem adjustmentSum_append : adjustmentSum (h ++ h') = adjustmentSum h + adjustmentSum h' := by
  rw [adjustmentSum, List.filterMap_append, List.sum_append]
  rfl

end

/-- The events h account for INQ, OUTLOG and RB between s and t (spec/44_io.md R172, R173; spec/45_relbase_halt.md R182). -/
structure AccountsFor (h : List Event) (s t : State) : Prop where
  inq : s.inq = deliveredWords h ++ t.inq
  outlog : t.outlog = s.outlog ++ outputWords h
  rb : t.rb = s.rb + adjustmentSum h

theorem AccountsFor.nil {s t : State} (hinq : t.inq = s.inq) (hout : t.outlog = s.outlog) (hrb : t.rb = s.rb) :
    AccountsFor [] s t where
  inq := hinq.symm
  outlog := hout.trans (List.append_nil _).symm
  rb := hrb.trans (add_zero _).symm

/-- A step without an event may change Memory, IP and how the run ends. -/
theorem AccountsFor.of_no_event {s t : State} (he : eventOf s t = []) (hinq : t.inq = s.inq) (hout : t.outlog = s.outlog)
    (hrb : t.rb = s.rb) : AccountsFor (eventOf s t) s t := by
  rw [he]
  exact .nil hinq hout hrb

theorem AccountsFor.append {h h' : List Event} {s t u : State} (hst : AccountsFor h s t) (htu : AccountsFor h' t u) :
    AccountsFor (h ++ h') s u where
  inq := by rw [hst.inq, htu.inq, deliveredWords_append, List.append_assoc]
  outlog := by rw [htu.outlog, hst.outlog, outputWords_append, List.append_assoc]
  rb := by rw [htu.rb, hst.rb, adjustmentSum_append, add_assoc]

section
variable {s t : State}

/-- A step that ends the run has no event. -/
theorem eventOf_of_ended (ht : t.ended) : eventOf s t = [] := by
  unfold eventOf
  cases hst : t.status with
  | running => exact absurd hst ht
  | halted | faulted => rfl

/-- An event is one of an instruction with one operand. -/
theorem eventOf_of_operands {i : Instr} (hc : s.current = some i) (hi : i.operands.length ≠ 1) : eventOf s t = [] := by
  unfold eventOf
  rw [hc]
  cases i with
  | readInput | saveOutput | adjustRelativeBase => exact absurd rfl hi
  | _ => cases t.status <;> rfl

variable (ht : t.status = .running)
include ht

theorem eventOf_readInput {d : Operand} {k : Nat} (hc : s.current = some (.readInput d)) (hd : DestinationAt s d k) :
    eventOf s t = [.delivered (t.mem.read k)] := by
  simp only [eventOf, ht, hc, destAddress_ok_iff.mpr hd]

theorem eventOf_saveOutput {a : Operand} {v : Int} (hc : s.current = some (.saveOutput a)) (hv : SourceValue s a v) :
    eventOf s t = [.output v] := by
  simp only [eventOf, ht, hc, readOperand_ok_iff.mpr hv]

theorem eventOf_adjustRelativeBase {a : Operand} {v : Int} (hc : s.current = some (.adjustRelativeBase a))
    (hv : SourceValue s a v) : eventOf s t = [.adjusted v] := by
  simp only [eventOf, ht, hc, readOperand_ok_iff.mpr hv]

end

/-- What the current instruction did to INQ, OUTLOG and RB is its event. -/
theorem Effect.accountsFor {i : Instr} {s t : State} (h : Effect i s t) (hs : s.status = .running)
    (hc : s.current = some i) : AccountsFor (eventOf s t) s t := by
  cases h with
  | store d k r hi hid hd =>
    exact .of_no_event (eventOf_of_operands hc (by omega)) rfl rfl rfl
  | input d v k hi hv hd =>
    subst hi
    rw [eventOf_readInput (by simpa using hs) hc hd, State.advance_mem, State.writeMem_mem, Memory.read_write_self]
    exact ⟨hv, (List.append_nil _).symm, (add_zero _).symm⟩
  | output a v hi hv =>
    subst hi
    rw [eventOf_saveOutput (by simpa using hs) hc hv]
    exact ⟨rfl, rfl, (add_zero _).symm⟩
  | jump k hi =>
    exact .of_no_event (eventOf_of_operands hc (by omega)) rfl rfl rfl
  | adjust a v hi hv hw =>
    subst hi
    rw [eventOf_adjustRelativeBase (by simpa using hs) hc hv]
    exact ⟨rfl, (List.append_nil _).symm, congrArg (s.rb + ·) (add_zero v).symm⟩
  | halt | fault => exact .of_no_event (eventOf_of_ended (by simp)) rfl rfl rfl

theorem step_accountsFor {s t : State} (h : step s = .next t) : AccountsFor (eventOf s t) s t := by
  obtain ⟨hs, heff⟩ := step_effect h
  cases heff with
  | offEnd | decodeFault => exact .of_no_event (eventOf_of_ended (by simp)) rfl rfl rfl
  | execute i t hip hc he => exact (exec_effect he).accountsFor hs hc

theorem history_accountsFor (k : Nat) : ∀ s, AccountsFor (history k s) s (run k s) := by
  induction k with
  | zero => exact fun s => .nil rfl rfl rfl
  | succ k ih =>
    intro s
    rw [history, run, runWith]
    cases hs : step s with
    | next t => exact (step_accountsFor hs).append (ih t)
    | fault r => exact .nil rfl rfl rfl
    | refused r => exact .nil rfl rfl rfl

/-- Settles O42: the events of each step account for its change of INQ, OUTLOG and RB, and those of a run are theirs in order. -/
theorem historyAccountsForQueueLogAndBase : Obligations.HistoryAccountsForQueueLogAndBase := by
  intro k s
  obtain ⟨hinq, hout, hrb⟩ := history_accountsFor k s
  exact ⟨hinq, hout, hrb⟩

/-! ### More input -/

/-- s with the Words l at the back of INQ. -/
def State.appendInput (l : List Int) (s : State) : State := { s with inq := s.inq ++ l }

section
variable (l : List Int) (s : State)

@[simp] theorem State.appendInput_rb : (s.appendInput l).rb = s.rb := rfl
@[simp] theorem State.writeMem_appendInput (a : Nat) (v : Int) :
    (s.appendInput l).writeMem a v = (s.writeMem a v).appendInput l := rfl
@[simp] theorem State.setIp_appendInput (a : Nat) : (s.appendInput l).setIp a = (s.setIp a).appendInput l := rfl
@[simp] theorem State.advance_appendInput (n : Nat) : (s.appendInput l).advance n = (s.advance n).appendInput l := rfl
@[simp] theorem State.setRb_appendInput (v : Int) : (s.appendInput l).setRb v = (s.setRb v).appendInput l := rfl
@[simp] theorem State.saveOutput_appendInput (v : Int) :
    (s.appendInput l).saveOutput v = (s.saveOutput v).appendInput l := rfl

@[simp] theorem readOperand_appendInput (o : Operand) :
    readOperand config (s.appendInput l) o = readOperand config s o := by
  cases o <;> rfl

@[simp] theorem destAddress_appendInput (o : Operand) :
    destAddress config (s.appendInput l) o = destAddress config s o := by
  cases o <;> rfl

variable {s} (h : s.inq ≠ [])
include h

/-- The front of a queue that is not empty does not depend on what is behind it. -/
theorem frontInput_appendInput : frontInput (s.appendInput l) = frontInput s := by
  obtain ⟨v, vs, hq⟩ := List.exists_cons_of_ne_nil h
  simp only [frontInput, State.appendInput, hq, List.cons_append]

theorem popInput_appendInput : (s.appendInput l).popInput = s.popInput.appendInput l := by
  simp only [State.popInput, State.appendInput, List.tail_append_of_ne_nil h]

end

/-- An execute phase that schedules the same with more input ends the same with more input, its fault included. -/
theorem commit_appendInput {l : List Int} {s t : State} {r r' : Except Fault State} (hr : r' = State.appendInput l <$> r)
    (h : commit s r = .next t) : commit (s.appendInput l) r' = .next (t.appendInput l) := by
  rcases commit_answeredAlike hr h with h' | ⟨k, rfl, h'⟩
  · exact h'
  · exact h'

/-- Only a ReadInput looks at the queue, and unless it finds it empty it takes the front. -/
theorem exec_appendInput (l : List Int) {i : Instr} {s t : State} (h : exec i s = .next t)
    (hq : t.fault ≠ some .inputExhausted) : exec i (s.appendInput l) = .next (t.appendInput l) := by
  cases i
  case add | multiply | lessThan | equals => exact commit_appendInput (by simp [map_bind]) h
  case jumpIfTrue | jumpIfFalse => exact commit_appendInput (by simp [map_bind, apply_ite]) h
  case saveOutput | adjustRelativeBase => exact commit_appendInput (by simp [map_bind]) h
  case readInput d =>
    by_cases he : s.inq = []
    · rw [exec, execReadInput, readInputAt_of_empty he] at h
      obtain rfl : takeFault .inputExhausted s = t := by simpa using h
      exact absurd rfl hq
    · exact commit_appendInput (by simp [map_bind, frontInput_appendInput l he, popInput_appendInput l he]) h
  case halt =>
    obtain rfl := exec_halt_iff.mp h
    rfl

/-- Settles O44: the end test, the fetch and the decode do not look at INQ, and the instruction finds the same front. -/
theorem moreInputChangesOnlyExhaustion : Obligations.MoreInputChangesOnlyExhaustion := by
  intro s t l ht hq
  change step (s.appendInput l) = .next (t.appendInput l)
  obtain ⟨hs, ⟨hip, rfl⟩ | ⟨hip, e, hd, rfl⟩ | ⟨hip, i, rest, hd, he⟩⟩ := step_cases ht
  · exact step_of_offEnd hs hip
  · exact step_of_decode_error (s := s.appendInput l) hs hip hd
  · have hc : (s.appendInput l).current = some i := State.current_eq_some_iff.mpr ⟨hs, hip, rest, hd⟩
    exact (step_of_current hc).trans (exec_appendInput l he hq)

end Sys2Proof.Machine
end

section
/-! PROOFS. The Relative Base and Halt (spec/45_relbase_halt.md): the execute phase of AdjustRelativeBase from what its operand is,
and Halt, whose opcode digits alone decode it. Statements O14 and O15. -/

namespace Sys2Proof.Machine

section
variable {a : Operand} {s : State} {va : Int}

theorem adjustRelativeBaseAt_of_outside {x : Int} (ha : AddressOutside s a x) :
    adjustRelativeBaseAt config a s = .next (takeFault (.outOfBounds x) s) := by
  rw [adjustRelativeBaseAt, readOperand_error_iff.mpr ⟨x, ha, rfl⟩]
  rfl

/-- The overflow test comes before the change of RB (spec/45_relbase_halt.md R181). -/
theorem adjustRelativeBaseAt_of_overflow (ha : SourceValue s a va) (hw : ¬ inWordRange (s.rb + va)) :
    adjustRelativeBaseAt config a s = .next (takeFault .arithmeticOverflow s) := by
  rw [adjustRelativeBaseAt, readOperand_ok_iff.mpr ha, bind_ok, checkWord_error_iff.mpr ⟨hw, rfl⟩]
  rfl

theorem adjustRelativeBaseAt_of_source (ha : SourceValue s a va) (hw : inWordRange (s.rb + va)) :
    adjustRelativeBaseAt config a s = .next { s with rb := s.rb + va, ip := s.ip + 2 } := by
  rw [adjustRelativeBaseAt, readOperand_ok_iff.mpr ha, bind_ok, checkWord_ok_iff.mpr ⟨hw, rfl⟩]
  rfl

end

/-- Settles O14: the operand is read at the old RB, then the exact sum is tested. -/
theorem adjustRelativeBaseAddsToTheBase : Obligations.AdjustRelativeBaseAddsToTheBase := by
  intro a s
  refine ⟨decode_one_operand (i := .adjustRelativeBase a) rfl, fun x hx => ?_, fun va ha => ⟨fun hw => ?_, fun hw => ?_⟩⟩
  · exact raises_of_eq_takeFault (adjustRelativeBaseAt_of_outside hx)
  · exact raises_of_eq_takeFault (adjustRelativeBaseAt_of_overflow ha hw)
  · exact adjustRelativeBaseAt_of_source ha hw

/-- Settles O15: the row of Halt has no operand, so its mode digits are never examined. -/
theorem haltChangesOnlyTheStatus : Obligations.HaltChangesOnlyTheStatus :=
  ⟨fun _ _ _ hop => decode_cons (op := .halt) hop, fun _ => exec_halt_iff.mpr rfl⟩

end Sys2Proof.Machine
end

section
/-! PROOFS. Faults and how a run ends (spec/60_exceptions.md R193, R198 to R206; spec/70_reset_and_hazards.md R239): what a Running and
an ended machine do next, that a fault changes nothing but STATUS and FAULT, and which causes an execute phase takes. Statements O20,
O21, O23 and O32. -/

namespace Sys2Proof.Machine

/-! ### Running and ended machines -/

/-- ReadInput on an empty queue does not wait (spec/44_io.md R170). -/
theorem raises_inputExhausted_of_empty {s : State} (hq : s.inq = []) (d : Operand) :
    Raises (exec (.readInput d) s) .inputExhausted :=
  raises_of_eq_takeFault (readInputAt_of_empty hq)

/-- Settles O20: every step of a Running machine answers a next state, and the empty queue is a fault taken. -/
theorem runningMachineIsNeverStuck : Obligations.RunningMachineIsNeverStuck := by
  refine ⟨fun x => ?_, fun s => step_next_of_running, fun s d hq => raises_inputExhausted_of_empty hq d⟩
  cases x
  case running => exact .inl rfl
  case halted => exact .inr (.inl rfl)
  case faulted => exact .inr (.inr rfl)

/-- A run that has ended after k steps is the same after any more of them. -/
theorem run_add_of_ended (j k : Nat) : ∀ s, (run k s).ended → run (k + j) s = run k s := by
  induction k with
  | zero =>
    intro s hend
    rw [Nat.zero_add]
    exact run_of_ended hend j
  | succ k ih =>
    intro s hend
    rw [Nat.succ_add]
    simp only [run, runWith] at hend ⊢
    cases hstep : step s with
    | next t =>
      rw [hstep] at hend
      exact ih t hend
    | fault r => rfl
    | refused r => rfl

/-- Settles O21: a step tests STATUS first, and a run goes on only while there is a step. -/
theorem endedMachineStaysAsItIs : Obligations.EndedMachineStaysAsItIs :=
  ⟨fun _ hend => stepWith_terminal hend, fun s j k => run_add_of_ended j k s,
    fun _ => ⟨fun hnormal => if_pos hnormal, fun habnormal => if_neg (by simp [habnormal])⟩⟩

/-- Settles O23: of the three endings of a step only the fault taken leaves STATUS Faulted. -/
theorem faultingStepChangesOnlyStatusAndFault : Obligations.FaultingStepChangesOnlyStatusAndFault := by
  intro s t hstep hfaulted
  cases step_ending hstep with
  | completes hnot hst hf hh => exact absurd hfaulted (by simp [hst])
  | halts hat r ht => exact absurd hfaulted (by simp [ht])
  | faults hnot k ht => exact ⟨k, ht⟩

/-! ### The causes of a fault -/

/-- The whole change from s to t is a fault taken, of a cause that the table of spec/60_exceptions.md R198 gives the row op. -/
def TakesFaultOf (op : Opcode) (s t : State) : Prop := ∃ k, t = takeFault k s ∧ mayRaise op k.cause = true

section
variable {op : Opcode} {s t : State} (hs : s.status = .running) (ht : t.status = .faulted)
include hs ht

theorem storeResultAt_takesFaultOf {f : Int → Int → Except Fault Int} {a b d : Operand}
    (hbounds : mayRaise op .outOfBounds = true) (hdest : mayRaise op .invalidDestination = true)
    (hresult : ∀ x y k, f x y = .error k → mayRaise op k.cause = true) (h : storeResultAt config f a b d s = .next t) :
    TakesFaultOf op s t := by
  rcases storeResultAt_cases h with ⟨va, vb, r, da, -, -, -, -, rfl⟩ | ⟨k, rfl, hk⟩
  · exact absurd ht (by simp [hs])
  · refine ⟨k, rfl, ?_⟩
    rcases hk with ⟨x, -, rfl⟩ | ⟨va, x, -, -, rfl⟩ | ⟨va, vb, -, -, hr⟩ | ⟨va, vb, r, -, -, -, ⟨-, rfl⟩ | ⟨x, -, rfl⟩⟩
    · exact hbounds
    · exact hbounds
    · exact hresult va vb k hr
    · exact hdest
    · exact hbounds

theorem jumpAt_takesFaultOf {fires : Int → Bool} {o g : Operand} (hbounds : mayRaise op .outOfBounds = true)
    (h : jumpAt config fires o g s = .next t) : TakesFaultOf op s t := by
  rcases jumpAt_cases h with ⟨vt, vg, -, -, ⟨-, -, rfl⟩ | ⟨-, rfl⟩⟩ | ⟨x, rfl, -⟩
  · exact absurd ht (by simp [hs])
  · exact absurd ht (by simp [hs])
  · exact ⟨_, rfl, hbounds⟩

/-- An instruction that faults takes a fault of one of its own causes (spec/60_exceptions.md R198). -/
theorem exec_takesFaultOf {i : Instr} (h : exec i s = .next t) : TakesFaultOf i.opcode s t := by
  have hoverflow {op : Opcode} (hop : mayRaise op .arithmeticOverflow = true) (v : Int) (k : Fault)
      (hk : checkWord config v = .error k) : mayRaise op k.cause = true := by
    obtain ⟨-, rfl⟩ := checkWord_error_iff.mp hk
    exact hop
  cases i
  case add a b d => exact storeResultAt_takesFaultOf hs ht rfl rfl (fun x y => hoverflow rfl (x + y)) h
  case multiply a b d => exact storeResultAt_takesFaultOf hs ht rfl rfl (fun x y => hoverflow rfl (x * y)) h
  case lessThan a b d => exact storeResultAt_takesFaultOf hs ht rfl rfl (fun x y k hk => absurd hk (by simp)) h
  case equals a b d => exact storeResultAt_takesFaultOf hs ht rfl rfl (fun x y k hk => absurd hk (by simp)) h
  case jumpIfTrue o g => exact jumpAt_takesFaultOf hs ht rfl h
  case jumpIfFalse o g => exact jumpAt_takesFaultOf hs ht rfl h
  case readInput d =>
    rcases readInputAt_cases h with ⟨v, da, -, -, rfl⟩ | ⟨k, rfl, ⟨-, rfl⟩ | ⟨-, ⟨-, rfl⟩ | ⟨x, -, rfl⟩⟩⟩
    · exact absurd ht (by simp [hs])
    · exact ⟨_, rfl, rfl⟩
    · exact ⟨_, rfl, rfl⟩
    · exact ⟨_, rfl, rfl⟩
  case saveOutput a =>
    rcases saveOutputAt_cases h with ⟨v, -, rfl⟩ | ⟨x, -, rfl⟩
    · exact absurd ht (by simp [hs])
    · exact ⟨_, rfl, rfl⟩
  case adjustRelativeBase a =>
    rcases adjustRelativeBaseAt_cases h with ⟨v, -, -, rfl⟩ | ⟨k, rfl, ⟨x, -, rfl⟩ | ⟨v, -, -, rfl⟩⟩
    · exact absurd ht (by simp [hs])
    · exact ⟨_, rfl, rfl⟩
    · exact ⟨_, rfl, rfl⟩
  case halt =>
    obtain rfl := exec_halt_iff.mp h
    exact absurd ht (by simp)

/-- A ReadInput that raises InputExhausted found the queue empty; with a front to take its faults are of other causes
(spec/44_io.md R170). -/
theorem inq_eq_nil_of_exhausted {d : Operand} (h : exec (.readInput d) s = .next t) (hf : t.fault = some .inputExhausted) :
    s.inq = [] := by
  rcases readInputAt_cases h with ⟨v, da, -, -, rfl⟩ | ⟨k, rfl, ⟨hq, -⟩ | ⟨-, ⟨-, rfl⟩ | ⟨x, -, rfl⟩⟩⟩
  · exact absurd ht (by simp [hs])
  · exact hq
  · exact absurd hf (by simp)
  · exact absurd hf (by simp)

end

/-- Of the ten rows only that of ReadInput has InputExhausted (spec/60_exceptions.md R198). -/
theorem eq_readInput_of_mayRaise_inputExhausted {i : Instr} (h : mayRaise i.opcode .inputExhausted = true) :
    ∃ d, i = .readInput d := by
  cases i
  case readInput d => exact ⟨d, rfl⟩
  all_goals exact absurd h Bool.false_ne_true

/-- The decoder does not look at INQ (spec/60_exceptions.md R191, R192, R196). -/
theorem decodeFault_ne_inputExhausted (ip : Nat) (e : DecodeError) : decodeFault ip e ≠ .inputExhausted := by
  cases e <;> simp [decodeFault]

/-- Settles O32: the end test halts and a decode fault has another cause, so the current instruction is the one that raises it, and
only a ReadInput can, which then found its queue empty. -/
theorem inputExhaustedExactlyOnEmptyQueue : Obligations.InputExhaustedExactlyOnEmptyQueue := by
  refine fun s => ⟨?raised, ?empty⟩
  case raised =>
    rintro ⟨t, hstep, ht, hf⟩
    obtain ⟨hs, ⟨-, rfl⟩ | ⟨-, e, -, rfl⟩ | ⟨hip, i, rest, hd, he⟩⟩ := step_cases hstep
    · exact absurd ht (by simp)
    · exact absurd (Option.some.inj hf) (decodeFault_ne_inputExhausted s.ip e)
    · obtain ⟨k, rfl, hk⟩ := exec_takesFaultOf hs ht he
      obtain rfl : k = .inputExhausted := Option.some.inj hf
      obtain ⟨d, rfl⟩ := eq_readInput_of_mayRaise_inputExhausted hk
      exact ⟨inq_eq_nil_of_exhausted hs ht he rfl, d, State.current_eq_some_iff.mpr ⟨hs, hip, rest, hd⟩⟩
  case empty =>
    rintro ⟨hq, d, hc⟩
    rw [step_of_current hc]
    exact raises_inputExhausted_of_empty hq d

end Sys2Proof.Machine
end

section
/-! PROOFS. Construction and the host's requests (spec/70_reset_and_hazards.md R230 to R238, R246): the state a program and inputs
make, the invariants it meets, and what IN_PUSH, STEP and PEEK do to a session. Statements O1, O4, O45, O46 and O47. -/

namespace Sys2Proof.Machine

/-! ### Construction -/

/-- The state construction makes of a program that fits (spec/70_reset_and_hazards.md R231, R232). -/
def State.initial (prog inputs : List Int) : State := { State.reset with mem := Memory.load [] 0 prog, inq := inputs }

theorem construct_ok_iff {prog inputs : List Int} {s : State} :
    construct config prog inputs = .ok s ↔ prog.length ≤ 2048 ∧ s = State.initial prog inputs := guard_ok_iff

theorem State.initial_read (prog inputs : List Int) (a : Nat) :
    (State.initial prog inputs).mem.read a = if a < prog.length then prog.getD a 0 else 0 := by
  simp [State.initial, Memory.read_load, Memory.read_nil]

/-- Settles O1: the program is loaded into the empty Memory, and the rest is as reset. -/
theorem constructionLoadsAndResets : Obligations.ConstructionLoadsAndResets := fun prog inputs hfit =>
  ⟨_, construct_ok_iff.mpr ⟨hfit, rfl⟩, fun a _ => State.initial_read prog inputs a, rfl, rfl, rfl, rfl, rfl, rfl, rfl⟩

/-- A load is a run of writes, each of which keeps the invariants. -/
theorem State.Inv.load (ws : List Int) : ∀ {s : State} {a : Nat}, s.Inv → a + ws.length ≤ 2048 → (∀ w ∈ ws, inWordRange w) →
    State.Inv { s with mem := s.mem.load a ws } := by
  induction ws with
  | nil => exact fun h _ _ => h
  | cons w ws ih =>
    intro s a h hfit hwords
    obtain ⟨hw, hws⟩ := List.forall_mem_cons.mp hwords
    rw [List.length_cons] at hfit
    exact ih (h.writeMem (by omega) hw) (by omega) hws

theorem State.initial_inv {prog inputs : List Int} (hfit : prog.length ≤ 2048) (hprog : ∀ w ∈ prog, inWordRange w)
    (hinputs : ∀ v ∈ inputs, inWordRange v) : (State.initial prog inputs).Inv :=
  have hreset : State.reset.Inv := resetMeetsInvariants.1
  have hloaded := hreset.load prog (a := 0) (by omega) hprog
  { hloaded with inq_words := hinputs }

/-- Settles O4: reset meets the invariants, and loading Words inside Memory and queueing Words keep them. -/
theorem constructionMeetsInvariants : Obligations.ConstructionMeetsInvariants := by
  rintro prog inputs ⟨hprog, hinputs, hfit⟩
  refine ⟨_, construct_ok_iff.mpr ⟨hfit, rfl⟩, State.initial_inv hfit (fun w hw => ?_) (fun v hv => ?_)⟩
  · exact (config_isWord_iff w).mp (hprog w hw)
  · exact (config_isWord_iff v).mp (hinputs v hv)

/-! ### IN_PUSH -/

theorem openSession_ok_iff {prog inputs : List Int} {x : Session} :
    openSession prog inputs = .ok x ↔ prog.length ≤ 2048 ∧ x = ⟨State.initial prog inputs, false⟩ := by
  simp only [openSession, bind_eq_ok_iff, construct_ok_iff, pure_eq_ok, Except.ok.injEq]
  constructor
  · rintro ⟨s, ⟨hfit, rfl⟩, rfl⟩; exact ⟨hfit, rfl⟩
  · rintro ⟨hfit, rfl⟩; exact ⟨_, ⟨hfit, rfl⟩, rfl⟩

theorem serve_inPush_of_not_started (s : State) {v : Int} (hv : inWordRange v) :
    serve (.inPush v) ⟨s, false⟩ = (⟨s.pushInput v, false⟩, .done) :=
  if_pos ⟨rfl, (config_isWord_iff v).mpr hv⟩

theorem serve_inPush_of_started (v : Int) {x : Session} (hx : x.started = true) : serve (.inPush v) x = (x, .refused) :=
  if_neg fun ⟨hnot, _⟩ => absurd (hx.symm.trans hnot) (by decide)

/-- The session after the host has asked to push each of the Words in turn. -/
def Session.pushAll (x : Session) (more : List Int) : Session := more.foldl (fun x v => (serve (.inPush v) x).1) x

theorem Session.pushAll_initial (prog more : List Int) (hmore : ∀ v ∈ more, inWordRange v) :
    ∀ inputs, Session.pushAll ⟨State.initial prog inputs, false⟩ more = ⟨State.initial prog (inputs ++ more), false⟩ := by
  induction more with
  | nil => exact fun inputs => by rw [List.append_nil]; rfl
  | cons v more ih =>
    intro inputs
    obtain ⟨hv, hrest⟩ := List.forall_mem_cons.mp hmore
    have hpush : (State.initial prog inputs).pushInput v = State.initial prog (inputs ++ [v]) := rfl
    rw [Session.pushAll, List.foldl_cons, serve_inPush_of_not_started _ hv, hpush, ← Session.pushAll, ih hrest,
      List.append_assoc, List.singleton_append]

/-- Settles O47: before the first step each push queues its Word behind the inputs, and once started a push is refused. -/
theorem pushingInputIsConstructingWithIt : Obligations.PushingInputIsConstructingWithIt := by
  refine ⟨fun prog inputs more x hopen hmore => ?_, fun v x hx => serve_inPush_of_started v hx⟩
  obtain ⟨hfit, rfl⟩ := openSession_ok_iff.mp hopen
  exact openSession_ok_iff.mpr ⟨hfit, Session.pushAll_initial prog more hmore inputs⟩

/-! ### STEP -/

theorem serve_step_cases (x : Session) :
    (∃ t, step x.machine = .next t ∧ serve .step x = (⟨t, true⟩, .done)) ∨ serve .step x = (x, .refused) := by
  simp only [serve, serveStep]
  cases step x.machine with
  | next t => exact .inl ⟨t, rfl, rfl⟩
  | fault r => exact .inr rfl
  | refused r => exact .inr rfl

/-- Every request but STEP leaves the machine of a started session as it is: a push is refused, the others are reads. -/
theorem serve_machine_of_ne_step {r : Request} {x : Session} (hx : x.started = true) (hr : r ≠ .step) :
    (serve r x).1.machine = x.machine := by
  cases r
  case step => exact absurd rfl hr
  case inPush v => rw [serve_inPush_of_started v hx]
  all_goals rfl

/-- Settles O45: only STEP can change the machine, and a STEP that is refused does not. -/
theorem hostOnlyLetsTheMachineStep : Obligations.HostOnlyLetsTheMachineStep := by
  intro r x hx hchanged
  obtain rfl : r = .step := by_contra fun hr => hchanged (serve_machine_of_ne_step hx hr)
  obtain ⟨t, hstep, hserve⟩ | hserve := serve_step_cases x
  · rw [hserve]
    exact ⟨rfl, hstep⟩
  · rw [hserve] at hchanged
    exact absurd rfl hchanged

/-! ### PEEK -/

theorem servePeek_of_running {x : Session} (hs : x.machine.status = .running) (a : Int) : servePeek a x = .refused := by
  rw [servePeek, hs]

theorem servePeek_of_ended {x : Session} (hend : x.machine.ended) (a : Int) :
    servePeek a x = if inMemory a then .word (x.machine.mem.read a.toNat) else .outOfBounds a := by
  cases hs : x.machine.status with
  | running => exact absurd hs hend
  | halted | faulted =>
    rw [servePeek, hs]
    by_cases ha : inMemory a
    · rw [checkAddress_ok_iff.mpr ⟨ha, rfl⟩, if_pos ha]
    · rw [checkAddress_error_iff.mpr ⟨ha, rfl⟩, if_neg ha]

/-- Settles O46: PEEK answers by STATUS, then by the address decoder, and gives the session back. -/
theorem peekReadsMemoryOfAnEndedMachine : Obligations.PeekReadsMemoryOfAnEndedMachine := fun _ a =>
  ⟨rfl, fun hs => servePeek_of_running hs a, fun hend h0 h1 => (servePeek_of_ended hend a).trans (if_pos ⟨h0, h1⟩),
    fun hend ha => (servePeek_of_ended hend a).trans (if_neg (not_inMemory_of_outside ha))⟩

end Sys2Proof.Machine
end

section
/-! PROOFS. Laws across the instructions: decode of encode (spec/30_encoding.md R93, R96), the table of causes
(spec/60_exceptions.md R198), the three comparisons together (spec/42_compare.md R152), and a program that does not fit
(spec/70_reset_and_hazards.md R234). Statements O29, O33, O39 and O2. -/

namespace Sys2Proof

/-! ### The canonical Words -/

/-- A canonical word has no digit above those of its modes (spec/30_encoding.md R81, R96). -/
theorem Instr.word_lt (i : Instr) : i.word < 10 ^ (i.operands.length + 2) := by
  rw [Instr.word_eq_emod (opcodeDigits_word i) (modeDigit_word i)]
  exact Int.emod_lt_of_pos _ (by positivity)

theorem Instr.word_inWordRange (i : Instr) : Machine.inWordRange i.word := by
  have hlow := i.word_nonneg
  have hhigh : i.word < 10 ^ (3 + 2) :=
    i.word_lt.trans_le (pow_le_pow_right₀ (by decide) (Nat.add_le_add_right (Machine.operands_length_le_three i) 2))
  exact ⟨by omega, by omega⟩

theorem length_encode (i : Instr) : (encode i).length = i.opcode.size := by
  rw [Machine.size_eq_operands_length, encode, List.length_cons, List.length_map]

/-- The canonical Words of a well-formed instruction can stand in Memory (spec/30_encoding.md R88). -/
theorem encode_inWordRange {i : Instr} (h : i.wf) : ∀ w ∈ encode i, Machine.inWordRange w :=
  List.forall_mem_cons.mpr ⟨i.word_inWordRange, List.forall_mem_map.mpr fun o ho => (config_isWord_iff _).mp (h o ho)⟩

/-- Settles O29: the digits of the canonical word give back the opcode and the modes. -/
theorem decodingTheCanonicalWordsGivesTheInstruction : Obligations.DecodingTheCanonicalWordsGivesTheInstruction :=
  fun i rest => ⟨decode_encode_append i rest, length_encode i, encode_inWordRange⟩

/-! ### Why a row fails to decode -/

/-- Operands that stop the decoder are at least one, and stop it by a mode digit or a missing parameter word
(spec/40_step_and_operands.md R115). -/
theorem takeOperands_error_cases {w : Int} {e : DecodeError} (k : Nat) : ∀ {n : Nat} {ps : List Int},
    takeOperands w k n ps = .error e → 0 < k ∧ ∃ m, e = .invalidMode w m ∨ e = .missingParameter m := by
  induction k with
  | zero => intro n ps h; exact absurd h nofun
  | succ k ih =>
    intro n ps h
    refine ⟨k.succ_pos, ?_⟩
    rw [takeOperands, Machine.bind_eq_error_iff] at h
    rcases h with hfirst | ⟨⟨o, rest⟩, -, hlater⟩
    · rcases decodeOperand_error_iff.mp hfirst with ⟨-, rfl⟩ | ⟨-, -, rfl⟩
      · exact ⟨n, .inl rfl⟩
      · exact ⟨n, .inr rfl⟩
    · exact (ih hlater).2

end Sys2Proof

namespace Sys2Proof.Machine

/-! ### Which row can raise which cause -/

/-- Every row but Halt's, the only one without an operand, has the causes of decoding an operand (spec/60_exceptions.md R198). -/
theorem mayRaise_invalidMode_iff {op : Opcode} : mayRaise op .invalidMode = true ↔ 0 < op.operandCount := by
  cases op <;> decide

theorem mayRaise_outOfBounds_iff {op : Opcode} : mayRaise op .outOfBounds = true ↔ 0 < op.operandCount := by
  cases op <;> decide

/-- What decoding the operands of a row can raise is in the table (spec/60_exceptions.md R198). -/
theorem mayRaise_of_decodeRow_error {op : Opcode} {w : Int} {ps : List Int} {e : DecodeError} (h : decodeRow op w ps = .error e)
    (ip : Nat) : mayRaise op (decodeFault ip e).cause = true := by
  obtain ⟨hcount, m, rfl | rfl⟩ := takeOperands_error_cases _ (decodeRow_error_iff.mp h)
  · exact mayRaise_invalidMode_iff.mpr hcount
  · exact mayRaise_outOfBounds_iff.mpr hcount

/-- A fault of an instruction word of a row is of a cause the table gives that row (spec/60_exceptions.md R198). -/
theorem mayRaise_of_raises {s : State} {op : Opcode} {k : Fault} (hip : s.ip < 2048)
    (hop : opcodeDigits (s.mem.read s.ip) = op.code) (h : Raises (step s) k) : mayRaise op k.cause = true := by
  obtain ⟨t, hstep, ht, hf⟩ := h
  obtain ⟨hs, ⟨hend, -⟩ | ⟨-, e, hd, rfl⟩ | ⟨-, i, rest, hd, he⟩⟩ := step_cases hstep
  · omega
  · obtain rfl : decodeFault s.ip e = k := Option.some.inj hf
    rw [State.fetchWords_eq_cons hip, decode_cons hop] at hd
    exact mayRaise_of_decodeRow_error hd s.ip
  · obtain ⟨k', rfl, hk⟩ := exec_takesFaultOf hs ht he
    obtain rfl : k' = k := Option.some.inj hf
    rw [State.fetchWords_eq_cons hip] at hd
    obtain ⟨w, hwords, hop', -⟩ := decode_ok_words hd
    obtain ⟨rfl, -⟩ := List.cons.inj hwords
    rwa [Opcode.code_injective (hop.symm.trans hop')]

/-- Some state whose instruction word is of the row op raises the cause x. -/
def CanRaise (op : Opcode) (x : Cause) : Prop :=
  ∃ (s : State) (k : Fault), s.ip < 2048 ∧ opcodeDigits (s.mem.read s.ip) = op.code ∧ Raises (step s) k ∧ k.cause = x

/-- s with the instruction word w at IP. -/
def State.withWord (s : State) (w : Int) : State := s.writeMem s.ip w

theorem State.withWord_read (s : State) (w : Int) : (s.withWord w).mem.read (s.withWord w).ip = w := Memory.read_write_self _ _ _

section
variable (op : Opcode) (s : State) {u : Int} (hu : 0 ≤ u)
include hu

/-- The digits above the lowest two do not change the row (spec/30_encoding.md R81). -/
theorem opcodeDigits_withWord :
    opcodeDigits ((s.withWord (op.code + 100 * u)).mem.read (s.withWord (op.code + 100 * u)).ip) = op.code := by
  have hcode := op.code_bounds
  rw [State.withWord_read, opcodeDigits_eq_emod (by omega)]
  omega

/-- The lowest digit above them is the mode digit of operand 1 (spec/30_encoding.md R81). -/
theorem decimalDigit_withWord :
    decimalDigit ((s.withWord (op.code + 100 * u)).mem.read (s.withWord (op.code + 100 * u)).ip) 2 = u % 10 := by
  have hcode := op.code_bounds
  rw [State.withWord_read, decimalDigit_eq_ediv_emod (by omega)]
  omega

end

theorem canRaise_of_withWord {op : Opcode} {s : State} {u : Int} {k : Fault} (hu : 0 ≤ u) (hip : s.ip < 2048)
    (h : Raises (step (s.withWord (op.code + 100 * u))) k) : CanRaise op k.cause :=
  ⟨s.withWord (op.code + 100 * u), k, hip, opcodeDigits_withWord op s hu, h, rfl⟩

section
variable {op : Opcode}

/-- The mode digit of operand 1 is 3. -/
theorem canRaise_invalidMode (h : mayRaise op .invalidMode = true) : CanRaise op .invalidMode := by
  have hu : (0 : Int) ≤ 3 := by decide
  have hip : State.reset.ip < 2048 := by decide
  have hdigit := decimalDigit_withWord op State.reset hu
  exact canRaise_of_withWord hu hip (raises_invalidMode (s := State.reset.withWord (op.code + 100 * 3)) rfl hip
    (opcodeDigits_withWord op _ hu) (mayRaise_invalidMode_iff.mp h) nofun (by rw [hdigit]; decide))

/-- The instruction word is the last Word of Memory, and its parameter word is missing. -/
theorem canRaise_outOfBounds (h : mayRaise op .outOfBounds = true) : CanRaise op .outOfBounds := by
  have hu : (0 : Int) ≤ 0 := le_rfl
  have hip : (State.reset.setIp 2047).ip < 2048 := by decide
  have hdigit := decimalDigit_withWord op (State.reset.setIp 2047) hu
  exact canRaise_of_withWord hu hip (raises_missingParameter (s := (State.reset.setIp 2047).withWord (op.code + 100 * 0)) rfl hip
    (opcodeDigits_withWord op _ hu) (mayRaise_outOfBounds_iff.mp h) nofun (by rw [hdigit]; decide) le_rfl)

/-- ReadInput finds the queue empty. -/
theorem canRaise_inputExhausted (h : mayRaise op .inputExhausted = true) : CanRaise op .inputExhausted := by
  refine canRaise_of_withWord (s := State.reset) (u := 0) (k := .inputExhausted) (by decide) (by decide) ?_
  cases op
  case readInput => exact ⟨_, rfl, rfl, rfl⟩
  all_goals exact absurd h Bool.false_ne_true

/-- A machine whose Relative Base and first two parameter words are WMAX. -/
def State.allGreatest : State :=
  { State.reset with mem := [(1, 9223372036854775807), (2, 9223372036854775807)], rb := 9223372036854775807 }

/-- The Literal WMAX is added to itself, multiplied by itself, or added to the Relative Base WMAX. -/
theorem canRaise_arithmeticOverflow (h : mayRaise op .arithmeticOverflow = true) : CanRaise op .arithmeticOverflow := by
  refine canRaise_of_withWord (s := State.allGreatest) (u := 11) (k := .arithmeticOverflow) (by decide) (by decide) ?_
  cases op
  case add | multiply | adjustRelativeBase => exact ⟨_, rfl, rfl, rfl⟩
  all_goals exact absurd h Bool.false_ne_true

/-- Every operand is a Literal, the destination too, and there is an input to take. -/
theorem canRaise_invalidDestination (h : mayRaise op .invalidDestination = true) : CanRaise op .invalidDestination := by
  refine canRaise_of_withWord (s := State.reset.pushInput 0) (u := 111) (k := .invalidDestination) (by decide) (by decide) ?_
  cases op
  case add | multiply | lessThan | equals | readInput => exact ⟨_, rfl, rfl, rfl⟩
  all_goals exact absurd h Bool.false_ne_true

theorem canRaise_of_mayRaise {x : Cause} (h : mayRaise op x = true) : CanRaise op x := by
  cases x
  case unknownOpcode => cases op <;> exact absurd h Bool.false_ne_true
  case invalidMode => exact canRaise_invalidMode h
  case outOfBounds => exact canRaise_outOfBounds h
  case inputExhausted => exact canRaise_inputExhausted h
  case arithmeticOverflow => exact canRaise_arithmeticOverflow h
  case invalidDestination => exact canRaise_invalidDestination h

end

/-- Settles O33: each entry of the table has a state that raises it, and a step raises nothing else, in decode or in execute. -/
theorem instructionsRaiseExactlyTheirCauses : Obligations.InstructionsRaiseExactlyTheirCauses := by
  refine fun op x => ⟨canRaise_of_mayRaise, ?_⟩
  rintro ⟨s, k, hip, hop, hraises, rfl⟩
  exact mayRaise_of_raises hip hop hraises

/-! ### The three comparisons -/

section
variable {s : State} {d : Operand} {k : Nat} (hd : DestinationAt s d k) (x y : Int)
include hd

theorem exec_lessThan_literals : exec (.lessThan (.literal x) (.literal y) d) s =
    .next { s with mem := s.mem.write k (if x < y then 1 else 0), ip := s.ip + 4 } :=
  storeResultAt_of_dest (a := .literal x) (b := .literal y) rfl rfl (congrArg Except.ok (lessThanWord_eq_ite x y)) hd

theorem exec_equals_literals : exec (.equals (.literal x) (.literal y) d) s =
    .next { s with mem := s.mem.write k (if x = y then 1 else 0), ip := s.ip + 4 } :=
  storeResultAt_of_dest (a := .literal x) (b := .literal y) rfl rfl (congrArg Except.ok (equalsWord_eq_ite x y)) hd

end

/-- Settles O39: the Words stored are the results, of which the order of x and y makes exactly one 1. -/
theorem exactlyOneComparisonHolds : Obligations.ExactlyOneComparisonHolds := by
  intro s x y d k hd
  refine ⟨_, _, _, exec_lessThan_literals hd x y, exec_lessThan_literals hd y x, exec_equals_literals hd x y, ?_⟩
  simp only [Memory.read_write_self]
  rcases lt_trichotomy x y with h | rfl | h
  · simp [h, h.not_gt, h.ne]
  · simp
  · simp [h, h.not_gt, h.ne']

/-! ### A program that does not fit -/

/-- Settles O2: construction tests the length against CAP. -/
theorem longProgramIsRefused : Obligations.LongProgramIsRefused := fun _ _ hlong =>
  guard_error_iff.mpr ⟨Nat.not_le.mpr hlong, rfl⟩

end Sys2Proof.Machine
end
